-- ==== Sys2Proof/Word.lean ====
section
/-! DEFINITION. The widths of the ports and fields: `spec/10_state.md` R27, R28 and `spec/30_encoding.md` R60 to R62. -/

namespace Sys2Proof

/-- A vector field of eight wires: `cmd.a`, `cmd.b`, `rsp.y`, `rsp.mask`. Element `i` of a vector is on
wire `i` (R42); a vector shorter than eight occupies the low wires (R43). -/
abbrev Byte := BitVec 8

/-- A small integer field of four wires: `op`, `idx`, `rsp.pos`, `rsp.pos2`, `rsp.cnt`. -/
abbrev Nibble := BitVec 4

/-- The command word `cmd = {op, idx, b, a}` (R60). -/
abbrev CmdWord := BitVec 24

/-- The matrix port `mat` (R61). -/
abbrev MatWord := BitVec 64

/-- The random port `rnd` (R62). -/
abbrev RndWord := BitVec 6

end Sys2Proof
end

