-- ==== Sys2Proof/Syntax.lean ====
section
/-! DEFINITION. One constructor per row of `spec/opcode_table.json`; the arguments are the fields of the command
the row reads (`spec/30_encoding.md` R65). A field it does not read is no argument (R66, log entry 10). -/

namespace Sys2Proof

/-- The operations of R63 and the unassigned code of R67. -/
inductive Instr where
  /-- `GFMUL` (R91): `b[3:0] = rows`, `b[7:4] = cols`, the vector on `a`. -/
  | gfmul (rows cols : Nibble) (a : Byte)
  /-- `ENC7` (R102): the data vector. -/
  | enc7 (a : Byte)
  /-- `SYN7` (R103): the received word. -/
  | syn7 (a : Byte)
  /-- `EPOS7` (R104): the syndrome. -/
  | epos7 (a : Byte)
  /-- `COR7` (R105): the 1-indexed position and the received word. -/
  | cor7 (idx : Nibble) (a : Byte)
  /-- `EXT7` (R106): the word. -/
  | ext7 (a : Byte)
  /-- `INJ7` (R141): the word. -/
  | inj7 (a : Byte)
  /-- `FLIP7` (R144): the index, the original codeword, the received word. -/
  | flip7 (idx : Nibble) (b a : Byte)
  /-- `op = 0x8` (R67): no field is interpreted. -/
  | illegal8
  /-- `ENC8` (R121): the data vector. -/
  | enc8 (a : Byte)
  /-- `SYN8` (R122): the received word. -/
  | syn8 (a : Byte)
  /-- `CLS8` (R123): the syndrome. -/
  | cls8 (a : Byte)
  /-- `COR8` (R124): the signed 0-indexed position and the received word. -/
  | cor8 (idx : Nibble) (a : Byte)
  /-- `EXT8` (R125): the word. -/
  | ext8 (a : Byte)
  /-- `INJ8` (R142): the count and the word. -/
  | inj8 (idx : Nibble) (a : Byte)
  /-- `FLIP8` (R145): the index, the original codeword, the received word. -/
  | flip8 (idx : Nibble) (b a : Byte)
  deriving DecidableEq, Repr

end Sys2Proof
end

