-- ==== Sys2Proof/Decode.lean ====
section
/-! DEFINITION. The command word of `spec/30_encoding.md` R60, the operation map R63, its structure R64, the read
fields R65, R66, and the encoder. -/

namespace Sys2Proof

/-- `cmd[23:20]` (R60). -/
def opField (w : CmdWord) : Nibble := w.extractLsb' 20 4

/-- `cmd[19:16]` (R60). -/
def idxField (w : CmdWord) : Nibble := w.extractLsb' 16 4

/-- `cmd[15:8]` (R60). -/
def bField (w : CmdWord) : Byte := w.extractLsb' 8 8

/-- `cmd[7:0]` (R60). -/
def aField (w : CmdWord) : Byte := w.extractLsb' 0 8

/-- `{op, idx, b, a}` (R60). -/
def command (op idx : Nibble) (b a : Byte) : CmdWord := op ++ idx ++ b ++ a

/-- The rows of `GFMUL`: `b[3:0]` (R65). -/
def rowsField (b : Byte) : Nibble := b.extractLsb' 0 4

/-- The columns of `GFMUL`: `b[7:4]` (R65). -/
def colsField (b : Byte) : Nibble := b.extractLsb' 4 4

/-- The operation map of R63. Every command word decodes; `0x8` is the unassigned code (R67). The last arm
stands for no value of `op`: all sixteen stand above it. -/
def decode (w : CmdWord) : Instr :=
  match opField w with
  | 0x0#4 => .gfmul (rowsField (bField w)) (colsField (bField w)) (aField w)
  | 0x1#4 => .enc7 (aField w)
  | 0x2#4 => .syn7 (aField w)
  | 0x3#4 => .epos7 (aField w)
  | 0x4#4 => .cor7 (idxField w) (aField w)
  | 0x5#4 => .ext7 (aField w)
  | 0x6#4 => .inj7 (aField w)
  | 0x7#4 => .flip7 (idxField w) (bField w) (aField w)
  | 0x8#4 => .illegal8
  | 0x9#4 => .enc8 (aField w)
  | 0xA#4 => .syn8 (aField w)
  | 0xB#4 => .cls8 (aField w)
  | 0xC#4 => .cor8 (idxField w) (aField w)
  | 0xD#4 => .ext8 (aField w)
  | 0xE#4 => .inj8 (idxField w) (aField w)
  | 0xF#4 => .flip8 (idxField w) (bField w) (aField w)
  | _ => .illegal8

/-- The operation code of a row (R63). -/
def Instr.op : Instr → Nibble
  | .gfmul _ _ _ => 0x0#4
  | .enc7 _ => 0x1#4
  | .syn7 _ => 0x2#4
  | .epos7 _ => 0x3#4
  | .cor7 _ _ => 0x4#4
  | .ext7 _ => 0x5#4
  | .inj7 _ => 0x6#4
  | .flip7 _ _ _ => 0x7#4
  | .illegal8 => 0x8#4
  | .enc8 _ => 0x9#4
  | .syn8 _ => 0xA#4
  | .cls8 _ => 0xB#4
  | .cor8 _ _ => 0xC#4
  | .ext8 _ => 0xD#4
  | .inj8 _ _ => 0xE#4
  | .flip8 _ _ _ => 0xF#4

/-- The command word of an instruction, unread fields 0 (R60, R65; log entry 10). -/
def encode : Instr → CmdWord
  | .gfmul rows cols a => command 0x0#4 0#4 (cols ++ rows) a
  | .enc7 a => command 0x1#4 0#4 0#8 a
  | .syn7 a => command 0x2#4 0#4 0#8 a
  | .epos7 a => command 0x3#4 0#4 0#8 a
  | .cor7 idx a => command 0x4#4 idx 0#8 a
  | .ext7 a => command 0x5#4 0#4 0#8 a
  | .inj7 a => command 0x6#4 0#4 0#8 a
  | .flip7 idx b a => command 0x7#4 idx b a
  | .illegal8 => command 0x8#4 0#4 0#8 0#8
  | .enc8 a => command 0x9#4 0#4 0#8 a
  | .syn8 a => command 0xA#4 0#4 0#8 a
  | .cls8 a => command 0xB#4 0#4 0#8 a
  | .cor8 idx a => command 0xC#4 idx 0#8 a
  | .ext8 a => command 0xD#4 0#4 0#8 a
  | .inj8 idx a => command 0xE#4 idx 0#8 a
  | .flip8 idx b a => command 0xF#4 idx b a

/-- The bits of the command that an operation code reads: `op`, and the fields R65 does not mark `-`. -/
def readMask (op : Nibble) : CmdWord :=
  match op with
  | 0x0#4 => 0xF0FFFF#24
  | 0x4#4 => 0xFF00FF#24
  | 0x7#4 => 0xFFFFFF#24
  | 0x8#4 => 0xF00000#24
  | 0xC#4 => 0xFF00FF#24
  | 0xE#4 => 0xFF00FF#24
  | 0xF#4 => 0xFFFFFF#24
  | _ => 0xF000FF#24

/-- The bits of the port `rnd` that a command reads: `r0` for `INJ7` and for `INJ8` with a legal count, `r1` for `INJ8`
with count 2 only (R62, R65). -/
def rndReadMask (w : CmdWord) : RndWord :=
  if opField w = 0x6#4 then 0b000111#6
  else if opField w = 0xE#4 ∧ idxField w = 1#4 then 0b000111#6
  else if opField w = 0xE#4 ∧ idxField w = 2#4 then 0b111111#6
  else 0#6

/-- The variant of an operation code: `op[3]`, true for the extended one (R64). -/
def opExtended (op : Nibble) : Bool := op.getLsbD 3

/-- The function of an operation code: `op[2:0]` (R64). -/
def opFunction (op : Nibble) : BitVec 3 := op.extractLsb' 0 3

/-- Decoding by the structure of R64: the two codes outside it first, then function and variant. -/
def decodeByStructure (w : CmdWord) : Instr :=
  if opField w = 0x0#4 then .gfmul (rowsField (bField w)) (colsField (bField w)) (aField w)
  else if opField w = 0x8#4 then .illegal8
  else
    match opFunction (opField w), opExtended (opField w) with
    | 1#3, false => .enc7 (aField w)
    | 1#3, true => .enc8 (aField w)
    | 2#3, false => .syn7 (aField w)
    | 2#3, true => .syn8 (aField w)
    | 3#3, false => .epos7 (aField w)
    | 3#3, true => .cls8 (aField w)
    | 4#3, false => .cor7 (idxField w) (aField w)
    | 4#3, true => .cor8 (idxField w) (aField w)
    | 5#3, false => .ext7 (aField w)
    | 5#3, true => .ext8 (aField w)
    | 6#3, false => .inj7 (aField w)
    | 6#3, true => .inj8 (idxField w) (aField w)
    | 7#3, false => .flip7 (idxField w) (bField w) (aField w)
    | 7#3, true => .flip8 (idxField w) (bField w) (aField w)
    | _, _ => .illegal8

/-- Why bits are no command. -/
inductive DecodeError where
  /-- A bit is set above the 24 of the one format (R60). -/
  | longerThanACommand
  deriving DecidableEq, Repr

/-- Decode `nbits` bits of value `w`: a command is 24 bits (R60); bits not given are 0, and a set bit above
the command's is refused by name (log entry 12). -/
def decodeBits (nbits w : Nat) : Except DecodeError Instr :=
  if w % 2 ^ nbits < 2 ^ 24 then .ok (decode (BitVec.ofNat 24 (w % 2 ^ nbits)))
  else .error .longerThanACommand

/-- The host's question: the instruction the decoder reads from a word as `opcode_table.json` numbers it. -/
def decodeTableWord (nbits w : Nat) : Option Instr :=
  match decodeBits nbits w with
  | .ok i => some i
  | .error _ => none

end Sys2Proof
end

