-- ==== Sys2Proof/Config.lean ====
section
/-! DEFINITION. The parameters of `spec/00_scope.md` R5. All are fixed by the spec; the one open parameter, the
random source `RNG` (D26), is the port `rnd` of the state and so free in every state (log entry 6). -/

namespace Sys2Proof.Config

/-- Data bits of a block (R5). -/
def dataBits : Nat := 4

/-- Codeword bits, standard variant (R5). -/
def codeBits7 : Nat := 7

/-- Codeword bits, extended variant (R5). -/
def codeBits8 : Nat := 8

/-- Syndrome bits, standard variant (R5). -/
def syndromeBits7 : Nat := 3

/-- Syndrome bits, extended variant (R5). -/
def syndromeBits8 : Nat := 4

/-- Most simultaneous manual flips, standard variant (R5, R144). -/
def flipCap7 : Nat := 1

/-- Most simultaneous manual flips, extended variant (R5, R145). -/
def flipCap8 : Nat := 2

/-- Most rows and most columns of a `GFMUL` matrix (R5, R61). -/
def gfmulMaxDim : Nat := 8

end Sys2Proof.Config
end

