-- ==== Sys2Proof/Machine/Codes.lean ====
section
/-! DEFINITION. The named codes on the response: fault causes (`spec/60_exceptions.md` R160), error types
(`spec/30_encoding.md` R70), and the error report of the data model (`spec/10_state.md` R30). -/

namespace Sys2Proof.Machine

/-- The six fault causes of R160. -/
inductive Cause where
  /-- Any command with `op = 0x8`. -/
  | illegalOp
  /-- A wire of `a` (or of `b` for `FLIP7`) at or above the operand's length is 1. -/
  | operandWidth
  /-- `GFMUL`: a dimension outside 1..8, a stray vector bit or a stray matrix bit. -/
  | dim
  /-- `INJ8`: the count is not 1 or 2. -/
  | count
  /-- `COR7`, `FLIP7`, `FLIP8`: a position outside the word. -/
  | position
  /-- `INJ7`, `INJ8` with count 2: the random source gave 7. -/
  | rngRange
  deriving DecidableEq, Repr

/-- The code of a cause on `rsp.cause` (R160). -/
def Cause.code : Cause → BitVec 3
  | .illegalOp => 1#3
  | .operandWidth => 2#3
  | .dim => 3#3
  | .count => 4#3
  | .position => 5#3
  | .rngRange => 6#3

/-- The cause a code names; 0 is no fault and 7 is never driven (R160). -/
def Cause.ofCode (c : BitVec 3) : Option Cause :=
  match c with
  | 1#3 => some .illegalOp
  | 2#3 => some .operandWidth
  | 3#3 => some .dim
  | 4#3 => some .count
  | 5#3 => some .position
  | 6#3 => some .rngRange
  | _ => none

/-- The source's `errorType` (R70). -/
inductive ErrorType where
  | none | single | double
  deriving DecidableEq, Repr

/-- The code of an error type on `rsp.etype` (R70). -/
def ErrorType.code : ErrorType → BitVec 2
  | .none => 0#2
  | .single => 1#2
  | .double => 2#2

/-- The ErrorReport of the data model: type, position, canCorrect (R30, R123). -/
structure ErrorReport where
  etype : ErrorType
  pos : Nibble
  cc : Bool
  deriving DecidableEq, Repr

end Sys2Proof.Machine
end

