-- ==== Sys2Proof/Machine/State.lean ====
section
/-! DEFINITION. The state of the model: what stands on the ports of the block (`spec/10_state.md` R27, R28). The
block itself holds nothing (R20 to R26); log entry 1. -/

namespace Sys2Proof.Machine

/-- The ten response fields of R28. A field that is not driven is 0 (R69). -/
structure Response where
  /-- The result vector. -/
  y : Byte := 0#8
  /-- A set of 0-indexed bit positions. -/
  mask : Byte := 0#8
  /-- A position result. -/
  pos : Nibble := 0#4
  /-- The second position of `INJ8` with count 2. -/
  pos2 : Nibble := 0#4
  /-- A count 0..8. -/
  cnt : Nibble := 0#4
  /-- The error type of `CLS8` (R70). -/
  etype : BitVec 2 := 0#2
  /-- `canCorrect` of `CLS8`. -/
  cc : Bool := false
  /-- Manual flip accepted. -/
  acc : Bool := false
  /-- The transaction faulted. -/
  fault : Bool := false
  /-- The fault cause code, 0 when `fault` is 0 (R160). -/
  cause : BitVec 3 := 0#3
  deriving DecidableEq, Repr

/-- The ports of the block: three inputs (R27) and the response (R28). -/
structure State where
  /-- The command word (R60). -/
  cmd : CmdWord
  /-- The matrix, read by `GFMUL` only (R61). -/
  mat : MatWord
  /-- The draws of the random source, read by `INJ7` and `INJ8` only (R62): the open parameter `RNG`. -/
  rnd : RndWord
  /-- The response of the last transaction evaluated (log entry 8). -/
  rsp : Response
  deriving DecidableEq, Repr

/-- What stops a run. No step of the block stops (R163, R166; log entry 2). -/
inductive Fault where
  /-- A transaction of a HOST PROGRAM faulted: the run ends there, gone wrong, without a result (R161, R175).
  Raised by `transact` and `runHost` of Machine/HostProgram.lean, never by `step` or `exec`. Safe: a claim
  about a program cannot reason past it, while the block itself would answer a further transaction. -/
  | precondition (cause : Cause)
  deriving DecidableEq, Repr

/-- What has no meaning. -/
inductive Refusal where
  /-- An instruction without a meaning yet. No arm of `exec` raises it. Safe. -/
  | notModelled (mnemonic : String)
  /-- A host program names a response that is not an earlier one, or copies a value into a field too narrow for
  it: no host program of R72, R175 (log entry 13). Raised by `runHost` only, never by `step` or `exec`. Safe. -/
  | notAHostProgram
  deriving DecidableEq, Repr

/-- The ports at the start. The block has no reset and no reset values (R29). The input ports are taken as 0
(DESIGN CHOICE, log entry 3); the response is the one R29 gives for all-zero inputs, a `DIM` fault
(log entry 4). -/
def State.reset : State :=
  { cmd := 0#24, mat := 0#64, rnd := 0#6, rsp := { fault := true, cause := 3#3 } }

end Sys2Proof.Machine
end

