-- ==== Sys2Proof/Machine/Ops.lean ====
section
/-! DEFINITION. Operations on bit vectors (`spec/00_scope.md` section 5.3, `spec/40_gf2_multiplier.md` R90) and on the
ports: fetching the command, driving a response, signalling a fault (`spec/60_exceptions.md` R161), the packed response
(`spec/30_encoding.md` R68). -/

namespace Sys2Proof.Machine

/-- `XOR_{j = 0 .. n-1} e(j)`; the empty sum is 0 (section 5.3, R92). -/
def xorSum : Nat → (Nat → Bool) → Bool
  | 0, _ => false
  | n + 1, e => xorSum n e ^^ e n

/-- How many `j` in `0 .. n-1` have `e(j)` = 1. -/
def countTrue : Nat → (Nat → Bool) → Nat
  | 0, _ => 0
  | n + 1, e => countTrue n e + (if e n then 1 else 0)

/-- The vector of `n` elements `f 0, …, f (n-1)`: element `i` on wire `i` (R42), the wires from `n` on are 0. -/
def packBits : Nat → (Nat → Bool) → Byte
  | 0, _ => 0#8
  | n + 1, f => packBits n f ||| (if f n then 1#8 <<< n else 0#8)

/-- A bracketed list `[v0,v1,...]`, index 0 first (R6). -/
def vec (l : List Bool) : Byte := packBits l.length fun i => l.getD i false

/-- The one-element set `1 << i` as a mask. -/
def single (i : Nat) : Byte := 1#8 <<< i

/-- `flip(v, i)`: `v` but for element `i` (section 5.3). -/
def flipBit (v : Byte) (i : Nat) : Byte := v ^^^ single i

/-- `popcount(m)` (section 5.3). -/
def popcount (m : Byte) : Nat := countTrue 8 m.getLsbD

/-- `M[r][c]` on `mat[8*r + c]` (R61). -/
def entry (m : MatWord) (r c : Nat) : Bool := m.getLsbD (8 * r + c)

/-- `multiply(M, v)`, `out[r] = XOR_{c = 0 .. cols-1} (M[r][c] & v[c])` (R90). -/
def multiply (rows cols : Nat) (m : MatWord) (v : Byte) : Byte :=
  packBits rows fun r => xorSum cols fun c => entry m r c && v.getLsbD c

/-- The projection of a word onto a list of indices, in the order of the list (R106, R125). -/
def project (idxs : List Nat) (v : Byte) : Byte := vec (idxs.map v.getLsbD)

/-- The command the block evaluates next: what stands on `cmd` (R27, R48). -/
def fetch (s : State) : CmdWord := s.cmd

/-- The host puts a transaction on the input ports (R27, R172). -/
def State.present (cmd : CmdWord) (mat : MatWord) (rnd : RndWord) (s : State) : State :=
  { s with cmd := cmd, mat := mat, rnd := rnd }

/-- Drive the response fields; the inputs are not changed (R30, R41). -/
def State.drive (r : Response) (s : State) : State := { s with rsp := r }

/-- Complete the transaction with a response. -/
def respond (r : Response) (s : State) : Host.Outcome State Fault Refusal := .next (s.drive r)

/-- The response of a faulting transaction: `fault`, the cause, every other field 0 (R161). -/
def Response.faulted (c : Cause) : Response := { fault := true, cause := c.code }

/-- `raise Fault(cause)` (R161). Nothing is saved, no mode changes, nothing is latched; there is no return from it
(R163): the next transaction is evaluated from its own inputs (log entry 2). -/
def raiseFault (c : Cause) (s : State) : Host.Outcome State Fault Refusal := respond (Response.faulted c) s

/-- The cause of a faulted response; none if the transaction completed. -/
def Response.faultCause (r : Response) : Option Cause := if r.fault then Cause.ofCode r.cause else none

/-- The packed 36-bit response (R68). -/
def Response.packed (r : Response) : BitVec 36 :=
  r.cause ++ BitVec.ofBool r.fault ++ BitVec.ofBool r.acc ++ BitVec.ofBool r.cc ++ r.etype ++ r.cnt ++
    r.pos2 ++ r.pos ++ r.mask ++ r.y

end Sys2Proof.Machine
end

