-- ==== Sys2Proof/Machine/Operands.lean ====
section
/-! DEFINITION. Reading and checking operands: lengths (`spec/20_memory.md` R43), the dimensions and stray bits of
`GFMUL` (`spec/40_gf2_multiplier.md` R91), signed and unsigned positions (`spec/30_encoding.md` R65), the draws
(`spec/30_encoding.md` R62, `spec/43_error_injector.md` R142). -/

namespace Sys2Proof.Machine

/-- A wire at or above the operand's length is 1 (R43). -/
def tooWide (len : Nat) (v : Byte) : Bool := v >>> len != 0#8

/-- A dimension outside 1..8 (R91). -/
def badDim (n : Nat) : Bool := n < 1 || Config.gfmulMaxDim < n

/-- A matrix bit outside `rows` by `cols` is 1 (R91). -/
def strayEntry (rows cols : Nat) (m : MatWord) : Bool :=
  (List.range 8).any fun r => (List.range 8).any fun c => (decide (rows ≤ r) || decide (cols ≤ c)) && entry m r c

/-- `r0 = uint(rnd[2:0])` (R62). -/
def draw0 (rnd : RndWord) : Nat := (rnd.extractLsb' 0 3).toNat

/-- `r1 = uint(rnd[5:3])` (R62). -/
def draw1 (rnd : RndWord) : Nat := (rnd.extractLsb' 3 3).toNat

/-- The second position of `INJ8`: the `r1`-th of the seven that remain, in increasing order (R142). -/
def secondPosition (r0 r1 : Nat) : Nat := if r1 < r0 then r1 else r1 + 1

/-- `uint` of a position, index or count field (R65). -/
def uint (idx : Nibble) : Nat := idx.toNat

/-- `sint4` of the position field of `COR8`, -8..7 (R65, section 5.3 of `spec/00_scope.md`). -/
def sint4 (idx : Nibble) : Int := idx.toInt

/-- A position, count or index as a response field; every value driven fits (R92). -/
def toField (n : Nat) : Nibble := BitVec.ofNat 4 n

end Sys2Proof.Machine
end

