-- ==== Sys2Proof/Machine/Flags.lean ====
section
/-! DEFINITION. The block keeps no flags (`spec/10_state.md` R23). What stands in their place are the result fields that
report: the classifier's `etype`, `pos`, `cc` (`spec/42_hamming84_secded.md` R123), the position decode
(`spec/41_hamming74.md` R104), and the error set and acceptance of a manual flip (`spec/43_error_injector.md` R143). -/

namespace Sys2Proof.Machine

/-- 1 or 0 as a number. -/
def bitValue (b : Bool) : Nat := if b then 1 else 0

/-- `s1*1 + s2*2 + s4*4` of the first three syndrome components (R104, R123). -/
def syndromeValue (s : Byte) : Nat :=
  bitValue (s.getLsbD 0) * 1 + bitValue (s.getLsbD 1) * 2 + bitValue (s.getLsbD 2) * 4

/-- The four-row decision table of R123. -/
def classify (s : Byte) : ErrorReport :=
  match s.getLsbD 3, decide (syndromeValue s = 0) with
  | false, true => { etype := .none, pos := 0#4, cc := true }
  | true, true => { etype := .single, pos := 0#4, cc := true }
  | true, false => { etype := .single, pos := toField (syndromeValue s), cc := true }
  | false, false => { etype := .double, pos := 0#4, cc := false }

/-- `{ j in 0..n-1 : r[j] != o[j] }` as a mask (R143). -/
def errorSet (n : Nat) (r o : Byte) : Byte := packBits n fun j => r.getLsbD j != o.getLsbD j

/-- A flip request is accepted iff the index is in the error set or the set is smaller than the cap (R143). -/
def flipAccepted (n cap : Nat) (r o : Byte) (i : Nat) : Bool :=
  (errorSet n r o).getLsbD i || decide (popcount (errorSet n r o) < cap)

/-- The received word after a flip request (R143). -/
def flipResult (n cap : Nat) (r o : Byte) (i : Nat) : Byte := if flipAccepted n cap r o i then flipBit r i else r

/-- The response of a manual flip, its error set recomputed in full (R143). -/
def flipResponse (n cap : Nat) (r o : Byte) (i : Nat) : Response :=
  { y := flipResult n cap r o i
    mask := errorSet n (flipResult n cap r o i) o
    cnt := toField (popcount (errorSet n (flipResult n cap r o i) o))
    acc := flipAccepted n cap r o i }

end Sys2Proof.Machine
end

