-- ==== Sys2Proof/Machine/ErrorInjector.lean ====
section
/-! DEFINITION. The Error Injector: `INJ7`, `INJ8`, `FLIP7`, `FLIP8` (`spec/43_error_injector.md`). The draws are what stands on
`rnd`, free in every state (R140; log entry 6). -/

namespace Sys2Proof.Machine

/-- `INJ7` (R141). -/
def execInj7 (a : Byte) (s : State) : Host.Outcome State Fault Refusal :=
  if tooWide Config.codeBits7 a then raiseFault .operandWidth s
  else if 6 < draw0 s.rnd then raiseFault .rngRange s
  else
    respond
      { y := flipBit a (draw0 s.rnd), pos := toField (draw0 s.rnd + 1), mask := single (draw0 s.rnd), cnt := 1#4 } s

/-- The response of `INJ8` with count 1 (R142). -/
def inj8One (a : Byte) (q0 : Nat) : Response := { y := flipBit a q0, pos := toField q0, mask := single q0, cnt := 1#4 }

/-- The response of `INJ8` with count 2 (R142). -/
def inj8Two (a : Byte) (q0 q1 : Nat) : Response :=
  { y := flipBit (flipBit a q0) q1, pos := toField q0, pos2 := toField q1, mask := single q0 ||| single q1, cnt := 2#4 }

/-- `INJ8` (R142). The count is checked first; `r1` is read only when it is 2. -/
def execInj8 (idx : Nibble) (a : Byte) (s : State) : Host.Outcome State Fault Refusal :=
  if uint idx < 1 || 2 < uint idx then raiseFault .count s
  else if uint idx = 1 then respond (inj8One a (draw0 s.rnd)) s
  else if 6 < draw1 s.rnd then raiseFault .rngRange s
  else respond (inj8Two a (draw0 s.rnd) (secondPosition (draw0 s.rnd) (draw1 s.rnd))) s

/-- `FLIP7` (R144). -/
def execFlip7 (idx : Nibble) (b a : Byte) (s : State) : Host.Outcome State Fault Refusal :=
  if tooWide Config.codeBits7 a || tooWide Config.codeBits7 b then raiseFault .operandWidth s
  else if 6 < uint idx then raiseFault .position s
  else respond (flipResponse Config.codeBits7 Config.flipCap7 a b (uint idx)) s

/-- `FLIP8` (R145). -/
def execFlip8 (idx : Nibble) (b a : Byte) (s : State) : Host.Outcome State Fault Refusal :=
  if 7 < uint idx then raiseFault .position s
  else respond (flipResponse Config.codeBits8 Config.flipCap8 a b (uint idx)) s

end Sys2Proof.Machine
end

