-- ==== Sys2Proof/Machine/Constants.lean ====
section
/-! DEFINITION. The three matrices and the two projection sets (`spec/10_state.md` R24), laid out as `mat` lays out a matrix
(`spec/30_encoding.md` R61): row `r` is byte `r`, column `c` is bit `c` of it. -/

namespace Sys2Proof.Machine

/-- A matrix from the bytes of its rows, row 0 first (R61). -/
def packRows : List Byte → MatWord
  | [] => 0#64
  | r :: rest => packRows rest <<< 8 ||| r.setWidth 64

/-- G, 7 rows by 4 columns (R100). -/
def matG : MatWord := packRows [0x0B#8, 0x0D#8, 0x01#8, 0x0E#8, 0x02#8, 0x04#8, 0x08#8]

/-- H, 3 rows by 7 columns (R101). -/
def matH : MatWord := packRows [0x55#8, 0x66#8, 0x78#8]

/-- H', 4 rows by 8 columns (R120). -/
def matHx : MatWord := packRows [0xAA#8, 0xCC#8, 0xF0#8, 0xFF#8]

/-- The data indices of the standard codeword (R106). -/
def dataIndices7 : List Nat := [2, 4, 5, 6]

/-- The data indices of the extended codeword (R125). -/
def dataIndices8 : List Nat := [3, 5, 6, 7]

end Sys2Proof.Machine
end

