-- ==== Sys2Proof/Machine/StandardCodec.lean ====
section
/-! DEFINITION. The Standard Codec, Hamming (7,4): `ENC7`, `SYN7`, `EPOS7`, `COR7`, `EXT7` (`spec/41_hamming74.md`). -/

namespace Sys2Proof.Machine

/-- `multiply(G, d)` (R102). -/
def encode7 (d : Byte) : Byte := multiply Config.codeBits7 Config.dataBits matG d

/-- `multiply(H, r)` (R103). -/
def syndrome7 (r : Byte) : Byte := multiply Config.syndromeBits7 Config.codeBits7 matH r

/-- Flip the bit at a 1-indexed position, none for 0 (R105; `spec/90_conflicts.md` C1). -/
def correct7 (r : Byte) (position : Nat) : Byte := if position = 0 then r else flipBit r (position - 1)

/-- `ENC7` (R102). -/
def execEnc7 (a : Byte) (s : State) : Host.Outcome State Fault Refusal :=
  if tooWide Config.dataBits a then raiseFault .operandWidth s else respond { y := encode7 a } s

/-- `SYN7` (R103). -/
def execSyn7 (a : Byte) (s : State) : Host.Outcome State Fault Refusal :=
  if tooWide Config.codeBits7 a then raiseFault .operandWidth s else respond { y := syndrome7 a } s

/-- `EPOS7` (R104). -/
def execEpos7 (a : Byte) (s : State) : Host.Outcome State Fault Refusal :=
  if tooWide Config.syndromeBits7 a then raiseFault .operandWidth s
  else respond { pos := toField (syndromeValue a) } s

/-- `COR7` (R105). -/
def execCor7 (idx : Nibble) (a : Byte) (s : State) : Host.Outcome State Fault Refusal :=
  if tooWide Config.codeBits7 a then raiseFault .operandWidth s
  else if 7 < uint idx then raiseFault .position s
  else respond { y := correct7 a (uint idx) } s

/-- `EXT7` (R106). -/
def execExt7 (a : Byte) (s : State) : Host.Outcome State Fault Refusal :=
  if tooWide Config.codeBits7 a then raiseFault .operandWidth s else respond { y := project dataIndices7 a } s

end Sys2Proof.Machine
end

