-- ==== Sys2Proof/Machine/ExtendedCodec.lean ====
section
/-! DEFINITION. The Extended Codec, Hamming (8,4) SECDED: `ENC8`, `SYN8`, `CLS8`, `COR8`, `EXT8`
(`spec/42_hamming84_secded.md`). -/

namespace Sys2Proof.Machine

/-- The standard codeword with `p0`, the mod-2 sum of its seven bits, in front (R121). -/
def encode8 (d : Byte) : Byte :=
  packBits Config.codeBits8 fun i =>
    match i with
    | 0 => xorSum Config.codeBits7 (encode7 d).getLsbD
    | i + 1 => (encode7 d).getLsbD i

/-- `multiply(H', r)` (R122). -/
def syndrome8 (r : Byte) : Byte := multiply Config.syndromeBits8 Config.codeBits8 matHx r

/-- Flip the bit at a 0-indexed position, none for a negative one (R124). -/
def correct8 (r : Byte) (position : Int) : Byte := if position < 0 then r else flipBit r position.toNat

/-- `ENC8` (R121). -/
def execEnc8 (a : Byte) (s : State) : Host.Outcome State Fault Refusal :=
  if tooWide Config.dataBits a then raiseFault .operandWidth s else respond { y := encode8 a } s

/-- `SYN8` (R122). -/
def execSyn8 (a : Byte) (s : State) : Host.Outcome State Fault Refusal := respond { y := syndrome8 a } s

/-- `CLS8` (R123). -/
def execCls8 (a : Byte) (s : State) : Host.Outcome State Fault Refusal :=
  if tooWide Config.syndromeBits8 a then raiseFault .operandWidth s
  else respond { etype := (classify a).etype.code, pos := (classify a).pos, cc := (classify a).cc } s

/-- `COR8` (R124). -/
def execCor8 (idx : Nibble) (a : Byte) (s : State) : Host.Outcome State Fault Refusal :=
  respond { y := correct8 a (sint4 idx) } s

/-- `EXT8` (R125). -/
def execExt8 (a : Byte) (s : State) : Host.Outcome State Fault Refusal := respond { y := project dataIndices8 a } s

end Sys2Proof.Machine
end

