-- ==== Sys2Proof/Machine/MatrixEngine.lean ====
section
/-! DEFINITION. The Matrix Engine: `GFMUL` (`spec/40_gf2_multiplier.md` R91). -/

namespace Sys2Proof.Machine

/-- The three `DIM` cases of R91. -/
def gfmulMismatch (rows cols : Nat) (a : Byte) (m : MatWord) : Bool :=
  badDim rows || badDim cols || tooWide cols a || strayEntry rows cols m

/-- `GFMUL` (R91). -/
def execGfmul (rows cols : Nibble) (a : Byte) (s : State) : Host.Outcome State Fault Refusal :=
  if gfmulMismatch (uint rows) (uint cols) a s.mat then raiseFault .dim s
  else respond { y := multiply (uint rows) (uint cols) s.mat a } s

end Sys2Proof.Machine
end

