-- ==== Sys2Proof/Machine/Unassigned.lean ====
section
/-! DEFINITION. The unassigned operation code `0x8` (`spec/30_encoding.md` R67). -/

namespace Sys2Proof.Machine

/-- Every command with `op = 0x8` faults `ILLEGAL_OP`, whatever its other fields hold (R67). -/
def execIllegal8 (s : State) : Host.Outcome State Fault Refusal := raiseFault .illegalOp s

end Sys2Proof.Machine
end

