-- ==== Sys2Proof/Machine/Dispatch.lean ====
section
/-! DEFINITION. One arm per constructor of Instr (`spec/30_encoding.md` R63, R67). -/

namespace Sys2Proof.Machine

def exec (i : Instr) (s : State) : Host.Outcome State Fault Refusal :=
  match i with
  | .gfmul rows cols a => Sys2Proof.Machine.execGfmul rows cols a s
  | .enc7 a => Sys2Proof.Machine.execEnc7 a s
  | .syn7 a => Sys2Proof.Machine.execSyn7 a s
  | .epos7 a => Sys2Proof.Machine.execEpos7 a s
  | .cor7 idx a => Sys2Proof.Machine.execCor7 idx a s
  | .ext7 a => Sys2Proof.Machine.execExt7 a s
  | .inj7 a => Sys2Proof.Machine.execInj7 a s
  | .flip7 idx b a => Sys2Proof.Machine.execFlip7 idx b a s
  | .illegal8 => Sys2Proof.Machine.execIllegal8 s
  | .enc8 a => Sys2Proof.Machine.execEnc8 a s
  | .syn8 a => Sys2Proof.Machine.execSyn8 a s
  | .cls8 a => Sys2Proof.Machine.execCls8 a s
  | .cor8 idx a => Sys2Proof.Machine.execCor8 idx a s
  | .ext8 a => Sys2Proof.Machine.execExt8 a s
  | .inj8 idx a => Sys2Proof.Machine.execInj8 idx a s
  | .flip8 idx b a => Sys2Proof.Machine.execFlip8 idx b a s

end Sys2Proof.Machine
end

