-- ==== Sys2Proof/Machine/Step.lean ====
section
/-! DEFINITION. One step is one transaction (`spec/20_memory.md` R41): the command on `cmd` is decoded and evaluated on the
ports. Nothing advances (`spec/10_state.md` R22): the host chooses the next command. -/

namespace Sys2Proof.Machine

/-- Evaluate the transaction on the input ports. -/
def step (s : State) : Host.Outcome State Fault Refusal := exec (decode (fetch s)) s

/-- The host puts the command `w` on the port `cmd` (log entry 5). -/
def State.withFetchWord (s : State) (nbits w : Nat) : State := { s with cmd := BitVec.ofNat 24 (w % 2 ^ nbits) }

end Sys2Proof.Machine
end

