-- ==== Sys2Proof/Machine/HostProgram.lean ====
section
/-! DEFINITION. What a host does with the block: transactions and host programs (`spec/60_exceptions.md` R172, R175), the
response fields a later transaction may use (`spec/30_encoding.md` R72), the macros `DEC7` and `DEC8`
(`spec/30_encoding.md` R73). Host data, no state of the block (`spec/10_state.md` R22); log entry 13. -/

namespace Sys2Proof.Machine

/-- The fields of a response (R28). -/
inductive RspField where
  | y | mask | pos | pos2 | cnt | etype | cc | acc
  deriving DecidableEq, Repr

/-- The unsigned value of a response field. -/
def Response.value (r : Response) : RspField → Nat
  | .y => r.y.toNat
  | .mask => r.mask.toNat
  | .pos => r.pos.toNat
  | .pos2 => r.pos2.toNat
  | .cnt => r.cnt.toNat
  | .etype => r.etype.toNat
  | .cc => r.cc.toNat
  | .acc => r.acc.toNat

/-- Where the host takes a number from (R72, R73). A label is the number of an earlier transaction, from 0. -/
inductive HostSource where
  /-- A value written in the program. -/
  | value (n : Nat)
  /-- `label.field`. -/
  | field (label : Nat) (f : RspField)
  /-- `label.pos if label.etype = 1 else -1`, as `DEC8` has it (R73). -/
  | posIfSingle (label : Nat)
  deriving DecidableEq, Repr

/-- What the host puts on one field or port: one number, or numbers side by side, each with the wires it takes, the lowest
first. The rows of `mat`, the draws `r0:r1` of `rnd` and the dimensions in `b` are such parts (R61, R62, R65, R72). -/
inductive HostOperand where
  | whole (src : HostSource)
  | parts (l : List (Nat × HostSource))
  deriving DecidableEq, Repr

/-- A value written in the program. -/
abbrev HostOperand.value (n : Nat) : HostOperand := .whole (.value n)

/-- `label.field`. -/
abbrev HostOperand.field (label : Nat) (f : RspField) : HostOperand := .whole (.field label f)

/-- A matrix given by its rows, row 0 first (R61, R72). -/
abbrev HostOperand.rows (l : List HostSource) : HostOperand := .parts (l.map fun src => (8, src))

/-- The draws `r0:r1` (R62, R72). -/
abbrev HostOperand.draws (r0 r1 : HostSource) : HostOperand := .parts [(3, r0), (3, r1)]

/-- One transaction of a host program (R72): each of its operands may be taken from earlier responses (R175). -/
structure HostStep where
  op : Nibble
  idx : HostOperand := .value 0
  b : HostOperand := .value 0
  a : HostOperand := .value 0
  mat : HostOperand := .value 0
  rnd : HostOperand := .value 0
  deriving DecidableEq, Repr

/-- The number a source gives, given the earlier responses; none if the label is no earlier one. -/
def HostSource.value? (earlier : List Response) : HostSource → Option Nat
  | .value n => some n
  | .field label f => (earlier[label]?).map fun r => r.value f
  | .posIfSingle label => (earlier[label]?).map fun r => if r.etype = ErrorType.single.code then r.pos.toNat else 15

/-- The number of parts side by side; none if one has no value or does not fit its wires. -/
def partsValue? (earlier : List Response) : List (Nat × HostSource) → Option Nat
  | [] => some 0
  | (w, src) :: rest =>
    match src.value? earlier, partsValue? earlier rest with
    | some n, some m => if n < 2 ^ w then some (n + 2 ^ w * m) else none
    | _, _ => none

/-- The number an operand gives. -/
def HostOperand.value? (earlier : List Response) : HostOperand → Option Nat
  | .whole src => src.value? earlier
  | .parts l => partsValue? earlier l

/-- An operand on `w` wires; none if the value does not fit them. -/
def HostOperand.wires? (earlier : List Response) (w : Nat) (o : HostOperand) : Option (BitVec w) :=
  match o.value? earlier with
  | some n => if n < 2 ^ w then some (BitVec.ofNat w n) else none
  | none => none

/-- The command word of a transaction, the host having copied the fields (R60, R72). -/
def HostStep.command? (earlier : List Response) (h : HostStep) : Option CmdWord :=
  match h.idx.wires? earlier 4, h.b.wires? earlier 8, h.a.wires? earlier 8 with
  | some idx, some b, some a => some (command h.op idx b a)
  | _, _, _ => none

/-- What a transaction puts on the input ports (R27, R175). -/
def HostStep.inputs? (earlier : List Response) (h : HostStep) : Option (CmdWord × MatWord × RndWord) :=
  match h.command? earlier, h.mat.wires? earlier 64, h.rnd.wires? earlier 6 with
  | some cmd, some mat, some rnd => some (cmd, mat, rnd)
  | _, _, _ => none

/-- One transaction as the host sees it: a next state, or `fault cause` with no value (R161). -/
def transact (cmd : CmdWord) (mat : MatWord) (rnd : RndWord) (s : State) : Host.Outcome State Fault Refusal :=
  match step (s.present cmd mat rnd) with
  | .next t =>
    match t.rsp.faultCause with
    | some c => .fault (.precondition c)
    | none => .next t
  | .fault f => .fault f
  | .refused r => .refused r

/-- A run of a host program: the transactions in list order; it ends after the last, or at the first that faults,
without a result (R175). The result is the list of all responses, `earlier` first. -/
def runHost : List HostStep → List Response → State → Host.Outcome (List Response) Fault Refusal
  | [], earlier, _ => .next earlier
  | h :: rest, earlier, s =>
    match h.inputs? earlier with
    | none => .refused .notAHostProgram
    | some (cmd, mat, rnd) =>
      match transact cmd mat rnd s with
      | .next t => runHost rest (earlier ++ [t.rsp]) t
      | .fault f => .fault f
      | .refused r => .refused r

/-- `DEC7 r` (R73) after `base` other transactions, `r` taken from anywhere the host may take an operand from. R73 does not say
whether the macro may follow others or what `r` may be: that it may, and may be this, is the model's choice (log entry 15). -/
def dec7At (base : Nat) (r : HostSource) : List HostStep :=
  [ { op := 0x2#4, a := .whole r },
    { op := 0x3#4, a := .field base .y },
    { op := 0x4#4, a := .whole r, idx := .field (base + 1) .pos },
    { op := 0x5#4, a := .field (base + 2) .y } ]

/-- `DEC8 r` (R73), placed like `dec7At` (log entry 15). -/
def dec8At (base : Nat) (r : HostSource) : List HostStep :=
  [ { op := 0xA#4, a := .whole r },
    { op := 0xB#4, a := .field base .y },
    { op := 0xC#4, a := .whole r, idx := .whole (.posIfSingle (base + 1)) },
    { op := 0xD#4, a := .field (base + 2) .y } ]

/-- `DEC7 r` (R73) as the first transactions of a run, `r` a value: the model's choice of a plain form (log entry 15). -/
def dec7 (r : Byte) : List HostStep := dec7At 0 (.value r.toNat)

/-- `DEC8 r` (R73) as the first transactions of a run, `r` a value: the model's choice of a plain form (log entry 15). -/
def dec8 (r : Byte) : List HostStep := dec8At 0 (.value r.toNat)

end Sys2Proof.Machine
end

