-- ==== Sys2Proof/WellFormed.lean ====
section
/-! DEFINITION. Which commands are well formed: those whose own fields are legal by the operand table of
`spec/30_encoding.md` R65. What a transaction checks beyond that is on the ports `mat` and `rnd`. An ill-formed
command still decodes, encodes and runs: it faults by name (log entry 11). -/

namespace Sys2Proof

/-- The unsigned value of a vector of `len` bits has no wire set at or above `len` (R43). -/
def hasLength (len : Nat) (v : Byte) : Bool := decide (v.toNat < 2 ^ len)

/-- The fields of the command are legal by R65 (and R91 for the dimensions of `GFMUL`, R67 for `0x8`). -/
def Instr.wellFormed : Instr → Bool
  | .gfmul rows cols a =>
    decide (1 ≤ rows.toNat ∧ rows.toNat ≤ Config.gfmulMaxDim) &&
    decide (1 ≤ cols.toNat ∧ cols.toNat ≤ Config.gfmulMaxDim) && hasLength cols.toNat a
  | .enc7 a => hasLength Config.dataBits a
  | .syn7 a => hasLength Config.codeBits7 a
  | .epos7 a => hasLength Config.syndromeBits7 a
  | .cor7 idx a => hasLength Config.codeBits7 a && decide (idx.toNat ≤ 7)
  | .ext7 a => hasLength Config.codeBits7 a
  | .inj7 a => hasLength Config.codeBits7 a
  | .flip7 idx b a =>
    hasLength Config.codeBits7 a && hasLength Config.codeBits7 b && decide (idx.toNat ≤ 6)
  | .illegal8 => false
  | .enc8 a => hasLength Config.dataBits a
  | .syn8 a => hasLength Config.codeBits8 a
  | .cls8 a => hasLength Config.syndromeBits8 a
  | .cor8 _ a => hasLength Config.codeBits8 a
  | .ext8 a => hasLength Config.codeBits8 a
  | .inj8 idx a => hasLength Config.codeBits8 a && decide (idx.toNat = 1 ∨ idx.toNat = 2)
  | .flip8 idx b a =>
    hasLength Config.codeBits8 a && hasLength Config.codeBits8 b && decide (idx.toNat ≤ 7)

end Sys2Proof
end

