-- ==== Sys2Proof/Safety.lean ====
section
/-! DEFINITION. What counts as a safe transaction and a safe run: the table of fault causes (`spec/60_exceptions.md` R160)
said once more, apart from the meanings; the responses the block can drive (`spec/30_encoding.md` R68 to R70,
`spec/40_gf2_multiplier.md` R92); the obligations of the caller (`spec/70_reset_and_hazards.md` R184, R185), which are
premises of a claim and no check of the block. -/

namespace Sys2Proof.Machine

/-- A cause, if its condition holds. -/
def causeIf (c : Cause) (p : Bool) : List Cause := if p then [c] else []

/-- `GFMUL` with operands of mismatched dimensions, as R160 lists the three cases. -/
abbrev DimensionMismatch (rows cols : Nat) (a : Byte) (mat : MatWord) : Prop :=
  ¬(1 ≤ rows ∧ rows ≤ 8) ∨ ¬(1 ≤ cols ∧ cols ≤ 8) ∨ (∃ i, i < 8 ∧ cols ≤ i ∧ a.getLsbD i = true) ∨
    ∃ r, r < 8 ∧ ∃ c, c < 8 ∧ (rows ≤ r ∨ cols ≤ c) ∧ mat.getLsbD (8 * r + c) = true

/-- All causes of R160 that apply to a transaction, the ports being `mat` and `rnd`. -/
def violations (mat : MatWord) (rnd : RndWord) : Instr → List Cause
  | .gfmul rows cols a => causeIf .dim (decide (DimensionMismatch rows.toNat cols.toNat a mat))
  | .enc7 a => causeIf .operandWidth (!hasLength 4 a)
  | .syn7 a => causeIf .operandWidth (!hasLength 7 a)
  | .epos7 a => causeIf .operandWidth (!hasLength 3 a)
  | .cor7 idx a => causeIf .operandWidth (!hasLength 7 a) ++ causeIf .position (7 < idx.toNat)
  | .ext7 a => causeIf .operandWidth (!hasLength 7 a)
  | .inj7 a => causeIf .operandWidth (!hasLength 7 a) ++ causeIf .rngRange (rnd.toNat % 8 = 7)
  | .flip7 idx b a =>
    causeIf .operandWidth (!hasLength 7 a || !hasLength 7 b) ++ causeIf .position (6 < idx.toNat)
  | .illegal8 => [.illegalOp]
  | .enc8 a => causeIf .operandWidth (!hasLength 4 a)
  | .syn8 _ => []
  | .cls8 a => causeIf .operandWidth (!hasLength 4 a)
  | .cor8 _ _ => []
  | .ext8 _ => []
  | .inj8 idx _ =>
    causeIf .count (idx.toNat ≠ 1 ∧ idx.toNat ≠ 2) ++ causeIf .rngRange (idx.toNat = 2 ∧ rnd.toNat / 8 = 7)
  | .flip8 idx _ _ => causeIf .position (7 < idx.toNat)

/-- A transaction is safe: no cause applies. -/
def safeTransaction (i : Instr) (s : State) : Bool := (violations s.mat s.rnd i).isEmpty

/-- The responses the block can drive: no cause without a fault (R160), a fault with one of the six causes and
every other field 0 (R161), no `etype` 3 (R70), positions 0..7 and counts 0..8 (R92). -/
abbrev Response.Legal (r : Response) : Prop :=
  (r.fault = false → r.cause = 0#3) ∧
  (r.fault = true → r.cause ≠ 0#3 ∧ r.cause ≠ 7#3 ∧ r = { fault := true, cause := r.cause }) ∧
  r.etype ≠ 3#2 ∧ r.pos.toNat ≤ 7 ∧ r.pos2.toNat ≤ 7 ∧ r.cnt.toNat ≤ 8

/-- The host keeps R184 when it passes `idx` to `COR8` after the report `rep`: the position of a `single` report, a
negative value otherwise. -/
abbrev KeepsR184 (rep : Response) (idx : Nibble) : Prop :=
  if rep.etype = ErrorType.single.code then idx = rep.pos else 8 ≤ idx.toNat

/-- The host keeps R185 when it passes `idx` to `COR7`: the `pos` that `EPOS7` returned. -/
abbrev KeepsR185 (rep : Response) (idx : Nibble) : Prop := idx = rep.pos

/-- A run of a host program is safe: it ends after its last transaction, none having faulted (R175). -/
def SafeRun (p : List HostStep) (s : State) : Prop := ∃ rs, runHost p [] s = .next rs

end Sys2Proof.Machine
end

