-- ==== Sys2Proof/Certificates/Slice0/Obligations.lean ====
section
/-! DEFINITION. The statements for the provers. A next state is written out as `{ s with rsp := … }`: the input ports stay as
they are and every response field not named is 0, so each result statement is also its frame. -/

open Sys2Proof Sys2Proof.Machine

/-! ### Encoding -/

/-- No bit of an encoding is dropped: decoding an encoded instruction gives it back, every operand at every value. -/
def Obligations.DecodeInvertsEncode : Prop :=
  ∀ i : Instr, decode (encode i) = i

/-- The other direction: encoding a decoded word keeps the fields its operation reads and clears the others (R65, R66). That
the encoder writes 0 in unread fields is the model's choice (log entry 10). -/
def Obligations.EncodeKeepsReadFields : Prop :=
  ∀ w : CmdWord, encode (decode w) = w &&& readMask (opField w)

/-- The one command format of R60. -/
def Obligations.CommandWordLayout : Prop :=
  (∀ (w : CmdWord) (k : Nat),
    (opField w).getLsbD k = (decide (k < 4) && w.getLsbD (20 + k)) ∧
    (idxField w).getLsbD k = (decide (k < 4) && w.getLsbD (16 + k)) ∧
    (bField w).getLsbD k = (decide (k < 8) && w.getLsbD (8 + k)) ∧
    (aField w).getLsbD k = (decide (k < 8) && w.getLsbD k)) ∧
  ∀ w : CmdWord, command (opField w) (idxField w) (bField w) (aField w) = w

/-- The table of R63 and the structure of R64 decode alike: but for `0x0` and `0x8`, `op[3]` is the variant and `op[2:0]`
the function. -/
def Obligations.OperationTableMatchesOpStructure : Prop :=
  ∀ w : CmdWord, decode w = decodeByStructure w

/-- Words written out from the encodings of the spec decode to the instructions they stand for. The last clause, a word longer
than a command refused, is the model's choice (log entry 12): no rule speaks of such a word. -/
def Obligations.SpecWordsDecode : Prop :=
  decode 0x00470D#24 = .gfmul 7#4 4#4 0x0D#8 ∧
  decode 0x10000D#24 = .enc7 0x0D#8 ∧
  decode 0x450076#24 = .cor7 5#4 0x76#8 ∧
  decode 0x746666#24 = .flip7 4#4 0x66#8 0x66#8 ∧
  decode 0x8FFFFF#24 = .illegal8 ∧
  decode 0xB00007#24 = .cls8 0x07#8 ∧
  decode 0xCF00DB#24 = .cor8 15#4 0xDB#8 ∧
  decode 0xE200FF#24 = .inj8 2#4 0xFF#8 ∧
  decode 0xF5FFFB#24 = .flip8 5#4 0xFF#8 0xFB#8 ∧
  decodeTableWord 24 0xA000DB = some (.syn8 0xDB#8) ∧
  decodeTableWord 32 0x01A000DB = none

/-- `op = 0x8` faults `ILLEGAL_OP` whatever the other fields hold, and every other `op` is a defined operation that never
raises it (R67). -/
def Obligations.UnassignedOpFaults : Prop :=
  (∀ (idx : Nibble) (b a : Byte), decode (command 0x8#4 idx b a) = .illegal8) ∧
  (∀ s : State, exec .illegal8 s = .next { s with rsp := { fault := true, cause := 1#3 } }) ∧
  (∀ w : CmdWord, opField w ≠ 0x8#4 → decode w ≠ .illegal8) ∧
  ∀ (i : Instr) (s : State), i ≠ .illegal8 → ∃ r, exec i s = .next { s with rsp := r } ∧ r.cause ≠ 1#3

/-- A field an operation does not read gives the same response at any value (R66). -/
def Obligations.UnreadFieldsAreIgnored : Prop :=
  ∀ s t : State,
    (s.cmd ^^^ t.cmd) &&& readMask (opField s.cmd) = 0#24 →
    (opField s.cmd = 0x0#4 → s.mat = t.mat) →
    (s.rnd ^^^ t.rnd) &&& rndReadMask s.cmd = 0#6 →
    ∃ r, step s = .next { s with rsp := r } ∧ step t = .next { t with rsp := r }

/-! ### The machine -/

/-- A step runs the decoded command on the ports; nothing advances around it. The third clause is about the model's choice that
placing a word puts it on `cmd` and leaves the other ports as they are (log entry 5). -/
def Obligations.StepRunsTheDecodedCommand : Prop :=
  (∀ s : State, step s = exec (decode s.cmd) s) ∧
  (∀ (i : Instr) (s : State), s.cmd = encode i → step s = exec i s) ∧
  ∀ (w : Nat) (s : State), w < 2 ^ 24 →
    step (s.withFetchWord 24 w) =
      exec (decode (BitVec.ofNat 24 w)) { s with cmd := BitVec.ofNat 24 w }

/-- R29: with all inputs zero the response is a `DIM` fault, all else 0. That the input ports are zero at reset, and so that
the reset state is one such state, is the model's choice (log entries 3 and 4). -/
def Obligations.AllZeroInputsAndReset : Prop :=
  (∀ s : State, s.cmd = 0#24 → s.mat = 0#64 → s.rnd = 0#6 →
    step s = .next { s with rsp := { fault := true, cause := 3#3 } }) ∧
  step State.reset = .next State.reset

/-- Every `(cmd, mat, rnd)` has exactly one response, a function of nothing else, and the inputs are left as they are
(R20, R166). -/
def Obligations.ResponseIsAFunctionOfTheInputs : Prop :=
  ∃ f : CmdWord → MatWord → RndWord → Response,
    ∀ s : State, step s = .next { s with rsp := f s.cmd s.mat s.rnd }

/-- Transactions are independent: what the ports held before a transaction leaves no trace in what comes after it (R46). -/
def Obligations.TransactionsAreIndependent : Prop :=
  ∀ (cmd : CmdWord) (mat : MatWord) (rnd : RndWord), ∃ t, ∀ s : State, step (s.present cmd mat rnd) = .next t

/-- No operation has a side effect: the same inputs presented again give the same response (R44). -/
def Obligations.RepeatedTransactionAnswersAlike : Prop :=
  ∀ s : State, ∃ t, step s = .next t ∧ step t = .next t

/-- The responses the block drives stay legal: no cause without a fault, a fault with one of six causes and nothing else, no
`etype` 3, positions 0..7, counts 0..8; and from any state at all the next response is legal. -/
def Obligations.StepKeepsResponsesLegal : Prop :=
  (∀ s t : State, s.rsp.Legal → step s = .next t → t.rsp.Legal) ∧
  ∀ s : State, ∃ t, step s = .next t ∧ t.rsp.Legal

/-- The response at reset is legal. The reset values are the model's choice (log entries 3 and 4). -/
def Obligations.ResetResponseIsLegal : Prop :=
  State.reset.rsp.Legal

/-- Which fields each operation drives when it does not fault: every other field is 0 and the wires of `y` and `mask` above
the result's length are 0 (R69). -/
def Obligations.OnlyDrivenFieldsAreSet : Prop :=
  ∀ (i : Instr) (s : State), ∃ r, exec i s = .next { s with rsp := r } ∧
    (r.fault = false →
      match i with
      | .gfmul rows _ _ => r = { y := r.y } ∧ r.y.toNat < 2 ^ rows.toNat
      | .enc7 _ => r = { y := r.y } ∧ r.y.toNat < 2 ^ 7
      | .syn7 _ => r = { y := r.y } ∧ r.y.toNat < 2 ^ 3
      | .epos7 _ => r = { pos := r.pos } ∧ r.pos.toNat ≤ 7
      | .cor7 _ _ => r = { y := r.y } ∧ r.y.toNat < 2 ^ 7
      | .ext7 _ => r = { y := r.y } ∧ r.y.toNat < 2 ^ 4
      | .inj7 a =>
        r = { y := r.y, pos := r.pos, mask := r.mask, cnt := 1#4 } ∧ r.y.toNat < 2 ^ 7 ∧
          1 ≤ r.pos.toNat ∧ r.pos.toNat ≤ 7 ∧ r.mask = 1#8 <<< (r.pos.toNat - 1) ∧ r.y = a ^^^ r.mask
      | .flip7 _ b _ =>
        r = { y := r.y, mask := r.mask, cnt := r.cnt, acc := r.acc } ∧ r.y.toNat < 2 ^ 7 ∧
          r.mask.toNat < 2 ^ 7 ∧ r.mask = r.y ^^^ b ∧ r.cnt.toNat = popcount r.mask
      | .illegal8 => False
      | .enc8 _ => r = { y := r.y }
      | .syn8 _ => r = { y := r.y } ∧ r.y.toNat < 2 ^ 4
      | .cls8 _ => r = { etype := r.etype, pos := r.pos, cc := r.cc }
      | .cor8 _ _ => r = { y := r.y }
      | .ext8 _ => r = { y := r.y } ∧ r.y.toNat < 2 ^ 4
      | .inj8 idx a =>
        r = { y := r.y, pos := r.pos, pos2 := r.pos2, mask := r.mask, cnt := idx } ∧ r.y = a ^^^ r.mask ∧
          (idx = 1#4 → r.pos2 = 0#4 ∧ r.mask = 1#8 <<< r.pos.toNat) ∧
          (idx = 2#4 → r.mask = 1#8 <<< r.pos.toNat ||| 1#8 <<< r.pos2.toNat)
      | .flip8 _ b _ =>
        r = { y := r.y, mask := r.mask, cnt := r.cnt, acc := r.acc } ∧
          r.mask = r.y ^^^ b ∧ r.cnt.toNat = popcount r.mask)

/-- The packed response of R68. -/
def Obligations.PackedResponseLayout : Prop :=
  ∀ r : Response,
    r.packed.extractLsb' 0 8 = r.y ∧ r.packed.extractLsb' 8 8 = r.mask ∧
    r.packed.extractLsb' 16 4 = r.pos ∧ r.packed.extractLsb' 20 4 = r.pos2 ∧
    r.packed.extractLsb' 24 4 = r.cnt ∧ r.packed.extractLsb' 28 2 = r.etype ∧
    r.packed.getLsbD 30 = r.cc ∧ r.packed.getLsbD 31 = r.acc ∧
    r.packed.getLsbD 32 = r.fault ∧ r.packed.extractLsb' 33 3 = r.cause

/-! ### Faults -/

/-- Fault signalling: a faulting transaction drives `fault`, `cause` and nothing else, and changes nothing else (R161), and
the block goes on (R163). That the outcome of a faulting transaction is a next state with that response is the model's choice
between two readings of R161 (log entry 2). -/
def Obligations.FaultDrivesCauseAndNothingElse : Prop :=
  (∀ (c : Cause) (s : State),
    raiseFault c s = .next { s with rsp := { fault := true, cause := c.code } }) ∧
  (∀ c : Cause, (Response.faulted c).packed.toNat = (2 * c.code.toNat + 1) * 2 ^ 32) ∧
  ∀ (i : Instr) (s t : State), exec i s = .next t → t.rsp.fault = true →
    ∃ c : Cause, t = { s with rsp := { fault := true, cause := c.code } }

/-- The causes of R160 and their codes, and the priority of R162: a transaction faults exactly if some cause applies to it,
and of those that apply the one with the lowest code is reported. -/
def Obligations.LowestApplicableCauseIsReported : Prop :=
  (Cause.illegalOp.code = 1#3 ∧ Cause.operandWidth.code = 2#3 ∧ Cause.dim.code = 3#3 ∧
    Cause.count.code = 4#3 ∧ Cause.position.code = 5#3 ∧ Cause.rngRange.code = 6#3) ∧
  ∀ (i : Instr) (s : State),
    (violations s.mat s.rnd i = [] →
      ∃ r, exec i s = .next { s with rsp := r } ∧ r.fault = false ∧ r.cause = 0#3) ∧
    (violations s.mat s.rnd i ≠ [] →
      ∃ c ∈ violations s.mat s.rnd i, (∀ c' ∈ violations s.mat s.rnd i, c.code.toNat ≤ c'.code.toNat) ∧
        exec i s = .next { s with rsp := { fault := true, cause := c.code } })

/-- A wire set at or above the length of a vector faults `OPERAND_WIDTH`, for `GFMUL` `DIM` (R43). -/
def Obligations.OverlongVectorsFault : Prop :=
  (∀ (a : Byte) (s : State), 2 ^ 4 ≤ a.toNat →
    exec (.enc7 a) s = .next { s with rsp := { fault := true, cause := 2#3 } } ∧
    exec (.enc8 a) s = .next { s with rsp := { fault := true, cause := 2#3 } } ∧
    exec (.cls8 a) s = .next { s with rsp := { fault := true, cause := 2#3 } }) ∧
  (∀ (a : Byte) (s : State), 2 ^ 3 ≤ a.toNat →
    exec (.epos7 a) s = .next { s with rsp := { fault := true, cause := 2#3 } }) ∧
  (∀ (idx : Nibble) (a b : Byte) (s : State), 2 ^ 7 ≤ a.toNat →
    exec (.syn7 a) s = .next { s with rsp := { fault := true, cause := 2#3 } } ∧
    exec (.cor7 idx a) s = .next { s with rsp := { fault := true, cause := 2#3 } } ∧
    exec (.ext7 a) s = .next { s with rsp := { fault := true, cause := 2#3 } } ∧
    exec (.inj7 a) s = .next { s with rsp := { fault := true, cause := 2#3 } } ∧
    exec (.flip7 idx b a) s = .next { s with rsp := { fault := true, cause := 2#3 } } ∧
    exec (.flip7 idx a b) s = .next { s with rsp := { fault := true, cause := 2#3 } }) ∧
  ∀ (rows cols : Nibble) (a : Byte) (s : State), 2 ^ cols.toNat ≤ a.toNat →
    exec (.gfmul rows cols a) s = .next { s with rsp := { fault := true, cause := 3#3 } }

/-- A `double` classification and a rejected manual flip are no faults (R165). -/
def Obligations.DoubleAndRejectedFlipAreNoFaults : Prop :=
  (∀ (a : Byte) (s : State), a.toNat < 16 → a.getLsbD 3 = false → a ≠ 0#8 →
    exec (.cls8 a) s = .next { s with rsp := { etype := 2#2, cc := false, fault := false } }) ∧
  (∀ (idx : Nibble) (b a : Byte) (s : State), a.toNat < 2 ^ 7 → b.toNat < 2 ^ 7 → idx.toNat ≤ 6 →
    (a ^^^ b).getLsbD idx.toNat = false → 1 ≤ popcount (a ^^^ b) →
    ∃ r, exec (.flip7 idx b a) s = .next { s with rsp := r } ∧ r.acc = false ∧ r.fault = false ∧ r.y = a) ∧
  ∀ (idx : Nibble) (b a : Byte) (s : State), idx.toNat ≤ 7 →
    (a ^^^ b).getLsbD idx.toNat = false → 2 ≤ popcount (a ^^^ b) →
    ∃ r, exec (.flip8 idx b a) s = .next { s with rsp := r } ∧ r.acc = false ∧ r.fault = false ∧ r.y = a

/-- What `Instr.wellFormed` means for a run: an ill-formed command faults in every state, a well-formed one completes for some
values of `mat` and `rnd`. The predicate is the model's own (log entry 11). -/
def Obligations.WellFormedMeansFaultOnlyOnPorts : Prop :=
  (∀ (i : Instr) (s : State), i.wellFormed = false →
    ∃ c : Cause, exec i s = .next { s with rsp := { fault := true, cause := c.code } }) ∧
  ∀ i : Instr, i.wellFormed = true →
    ∃ mat rnd, ∀ s : State, s.mat = mat → s.rnd = rnd →
      ∃ r, exec i s = .next { s with rsp := r } ∧ r.fault = false

/-! ### The Matrix Engine -/

/-- The mod-2 sum of a set of bits is 1 iff an odd number of them are 1; the empty sum is 0 (R92). -/
def Obligations.ModTwoSumIsParity : Prop :=
  ∀ (n : Nat) (e : Nat → Bool), xorSum n e = decide (((List.range n).filter e).length % 2 = 1)

/-- `multiply` is linear, gives a column for a unit vector, and of a received word a syndrome that depends on the error
pattern alone when the word sent is a codeword (R93). -/
def Obligations.MultiplyIsLinear : Prop :=
  (∀ (rows cols : Nat) (m : MatWord) (u v : Byte),
    multiply rows cols m (u ^^^ v) = multiply rows cols m u ^^^ multiply rows cols m v ∧
    multiply rows cols m 0#8 = 0#8) ∧
  (∀ (rows cols : Nat) (m : MatWord) (c r : Nat), rows ≤ 8 → cols ≤ 8 → c < cols → r < rows →
    (multiply rows cols m (1#8 <<< c)).getLsbD r = m.getLsbD (8 * r + c)) ∧
  ∀ d e : Byte, d.toNat < 16 →
    multiply 3 7 matH (multiply 7 4 matG d ^^^ e) = multiply 3 7 matH e

/-- `GFMUL`: operands, encoding, product and the three `DIM` cases (R91, with the product of R90). -/
def Obligations.GfmulResult : Prop :=
  (∀ (idx rows cols : Nibble) (a : Byte), decode (command 0x0#4 idx (cols ++ rows) a) = .gfmul rows cols a) ∧
  (∀ (rows cols : Nibble) (a : Byte) (s : State),
    1 ≤ rows.toNat → rows.toNat ≤ 8 → 1 ≤ cols.toNat → cols.toNat ≤ 8 →
    (∀ i, cols.toNat ≤ i → i < 8 → a.getLsbD i = false) →
    (∀ r c, r < 8 → c < 8 → rows.toNat ≤ r ∨ cols.toNat ≤ c → s.mat.getLsbD (8 * r + c) = false) →
    ∃ y : Byte, exec (.gfmul rows cols a) s = .next { s with rsp := { y := y } } ∧
      (∀ r, r < rows.toNat →
        y.getLsbD r = xorSum cols.toNat fun c => s.mat.getLsbD (8 * r + c) && a.getLsbD c) ∧
      ∀ r, rows.toNat ≤ r → y.getLsbD r = false) ∧
  (∀ (rows cols : Nibble) (a : Byte) (s : State),
    (rows.toNat < 1 ∨ 8 < rows.toNat ∨ cols.toNat < 1 ∨ 8 < cols.toNat ∨
      (∃ i, cols.toNat ≤ i ∧ i < 8 ∧ a.getLsbD i = true) ∨
      (∃ r c, r < 8 ∧ c < 8 ∧ (rows.toNat ≤ r ∨ cols.toNat ≤ c) ∧ s.mat.getLsbD (8 * r + c) = true)) →
    exec (.gfmul rows cols a) s = .next { s with rsp := { fault := true, cause := 3#3 } }) ∧
  ∀ s : State, s.cmd = 0x00470D#24 → s.mat = 0x000804020E010D0B#64 →
    step s = .next { s with rsp := { y := 0x66#8 } }

/-- The codec operations are instances of `GFMUL` with the constant matrices on `mat` (R94). -/
def Obligations.CodecsAreGfmulInstances : Prop :=
  (∀ (a : Byte) (s t : State), a.toNat < 2 ^ 4 → s.mat = 0x000804020E010D0B#64 →
    ∃ y : Byte, exec (.gfmul 7#4 4#4 a) s = .next { s with rsp := { y := y } } ∧
      exec (.enc7 a) t = .next { t with rsp := { y := y } } ∧
      ∃ x : Byte, exec (.enc8 a) t = .next { t with rsp := { y := x } } ∧
        x.getLsbD 0 = xorSum 7 y.getLsbD ∧ ∀ i, i < 7 → x.getLsbD (i + 1) = y.getLsbD i) ∧
  (∀ (a : Byte) (s t : State), a.toNat < 2 ^ 7 → s.mat = 0x0000000000786655#64 →
    ∃ y : Byte, exec (.gfmul 3#4 7#4 a) s = .next { s with rsp := { y := y } } ∧
      exec (.syn7 a) t = .next { t with rsp := { y := y } }) ∧
  ∀ (a : Byte) (s t : State), s.mat = 0x00000000FFF0CCAA#64 →
    ∃ y : Byte, exec (.gfmul 4#4 8#4 a) s = .next { s with rsp := { y := y } } ∧
      exec (.syn8 a) t = .next { t with rsp := { y := y } }

/-- The three constant matrices: G row by row (R100), H by the binary digits of the position (R101), H' from H shifted by one
column with a row of ones (R120). -/
def Obligations.ConstantMatrices : Prop :=
  ((List.range 7).map fun r => (List.range 4).map fun c => entry matG r c) =
    [[true, true, false, true], [true, false, true, true], [true, false, false, false],
     [false, true, true, true], [false, true, false, false], [false, false, true, false],
     [false, false, false, true]] ∧
  (∀ k, k < 3 → ∀ j, j < 7 → entry matH k j = (j + 1).testBit k) ∧
  (∀ k, k < 3 → entry matHx k 0 = false ∧ ∀ j, j < 7 → entry matHx k (j + 1) = entry matH k j) ∧
  (∀ k, k < 3 → ∀ i, i < 8 → entry matHx k i = i.testBit k) ∧
  ∀ i, i < 8 → entry matHx 3 i = true

/-! ### The Standard Codec -/

/-- `ENC7` (R102). -/
def Obligations.Enc7Result : Prop :=
  (∀ (idx : Nibble) (b a : Byte), decode (command 0x1#4 idx b a) = .enc7 a) ∧
  (∀ (d c : Byte) (s : State), d.toNat < 2 ^ 4 →
    c = vec
      [d.getLsbD 0 ^^ d.getLsbD 1 ^^ d.getLsbD 3, d.getLsbD 0 ^^ d.getLsbD 2 ^^ d.getLsbD 3, d.getLsbD 0,
       d.getLsbD 1 ^^ d.getLsbD 2 ^^ d.getLsbD 3, d.getLsbD 1, d.getLsbD 2, d.getLsbD 3] →
    multiply 7 4 matG d = c ∧ exec (.enc7 d) s = .next { s with rsp := { y := c } }) ∧
  (∀ (d : Byte) (s : State), 2 ^ 4 ≤ d.toNat →
    exec (.enc7 d) s = .next { s with rsp := { fault := true, cause := 2#3 } }) ∧
  ∀ s : State, s.cmd = 0x10000D#24 → step s = .next { s with rsp := { y := 0x66#8 } }

/-- `SYN7` (R103). -/
def Obligations.Syn7Result : Prop :=
  (∀ (idx : Nibble) (b a : Byte), decode (command 0x2#4 idx b a) = .syn7 a) ∧
  (∀ (r z : Byte) (s : State), r.toNat < 2 ^ 7 →
    z = vec
      [r.getLsbD 0 ^^ r.getLsbD 2 ^^ r.getLsbD 4 ^^ r.getLsbD 6,
       r.getLsbD 1 ^^ r.getLsbD 2 ^^ r.getLsbD 5 ^^ r.getLsbD 6,
       r.getLsbD 3 ^^ r.getLsbD 4 ^^ r.getLsbD 5 ^^ r.getLsbD 6] →
    multiply 3 7 matH r = z ∧ exec (.syn7 r) s = .next { s with rsp := { y := z } }) ∧
  (∀ (r : Byte) (s : State), 2 ^ 7 ≤ r.toNat →
    exec (.syn7 r) s = .next { s with rsp := { fault := true, cause := 2#3 } }) ∧
  ∀ s : State, s.cmd = 0x200076#24 → step s = .next { s with rsp := { y := 0x05#8 } }

/-- `EPOS7` (R104): the weighted sum, which is the unsigned value of the syndrome. -/
def Obligations.Epos7Result : Prop :=
  (∀ (idx : Nibble) (b a : Byte), decode (command 0x3#4 idx b a) = .epos7 a) ∧
  (∀ (a : Byte) (p : Nibble) (s : State), a.toNat < 2 ^ 3 →
    p.toNat = (a.getLsbD 0).toNat * 1 + (a.getLsbD 1).toNat * 2 + (a.getLsbD 2).toNat * 4 →
    p.toNat = a.toNat ∧ exec (.epos7 a) s = .next { s with rsp := { pos := p } }) ∧
  (∀ (a : Byte) (s : State), 2 ^ 3 ≤ a.toNat →
    exec (.epos7 a) s = .next { s with rsp := { fault := true, cause := 2#3 } }) ∧
  ∀ s : State, s.cmd = 0x300005#24 → step s = .next { s with rsp := { pos := 5#4 } }

/-- `COR7` (R105): position 0 is the identity, position `p` flips index `p - 1`, verified or not. -/
def Obligations.Cor7Result : Prop :=
  (∀ (idx : Nibble) (b a : Byte), decode (command 0x4#4 idx b a) = .cor7 idx a) ∧
  (∀ (r : Byte) (s : State), r.toNat < 2 ^ 7 →
    exec (.cor7 0#4 r) s = .next { s with rsp := { y := r } }) ∧
  (∀ (idx : Nibble) (r : Byte) (s : State), r.toNat < 2 ^ 7 → 1 ≤ idx.toNat → idx.toNat ≤ 7 →
    exec (.cor7 idx r) s = .next { s with rsp := { y := r ^^^ 1#8 <<< (idx.toNat - 1) } } ∧
    exec (.cor7 idx (r ^^^ 1#8 <<< (idx.toNat - 1))) s = .next { s with rsp := { y := r } }) ∧
  (∀ (idx : Nibble) (r : Byte) (s : State), 2 ^ 7 ≤ r.toNat →
    exec (.cor7 idx r) s = .next { s with rsp := { fault := true, cause := 2#3 } }) ∧
  (∀ (idx : Nibble) (r : Byte) (s : State), r.toNat < 2 ^ 7 → 7 < idx.toNat →
    exec (.cor7 idx r) s = .next { s with rsp := { fault := true, cause := 5#3 } }) ∧
  ∀ s : State, s.cmd = 0x450076#24 → step s = .next { s with rsp := { y := 0x66#8 } }

/-- `EXT7` (R106): the projection to the indices {2,4,5,6}. -/
def Obligations.Ext7Result : Prop :=
  (∀ (idx : Nibble) (b a : Byte), decode (command 0x5#4 idx b a) = .ext7 a) ∧
  (∀ (c : Byte) (s : State), c.toNat < 2 ^ 7 →
    exec (.ext7 c) s = .next { s with rsp := { y := vec [c.getLsbD 2, c.getLsbD 4, c.getLsbD 5, c.getLsbD 6] } }) ∧
  (∀ (c : Byte) (s : State), 2 ^ 7 ≤ c.toNat →
    exec (.ext7 c) s = .next { s with rsp := { fault := true, cause := 2#3 } }) ∧
  ∀ s : State, s.cmd = 0x500066#24 → step s = .next { s with rsp := { y := 0x0D#8 } }

/-- A codeword has a zero syndrome and gives its data back (R107). -/
def Obligations.StandardRoundTrip : Prop :=
  ∀ (d : Byte) (s : State), d.toNat < 16 →
    ∃ c : Byte, exec (.enc7 d) s = .next { s with rsp := { y := c } } ∧
      exec (.syn7 c) s = .next { s with rsp := { y := 0#8 } } ∧
      exec (.ext7 c) s = .next { s with rsp := { y := d } }

/-- Single-error correction of the standard codec (R108). -/
def Obligations.StandardCorrectsSingleErrors : Prop :=
  ∀ (d : Byte) (i : Nat) (s : State), d.toNat < 16 → i < 7 →
    ∃ c z : Byte, exec (.enc7 d) s = .next { s with rsp := { y := c } } ∧
      exec (.syn7 (c ^^^ 1#8 <<< i)) s = .next { s with rsp := { y := z } } ∧
      exec (.epos7 z) s = .next { s with rsp := { pos := BitVec.ofNat 4 (i + 1) } } ∧
      exec (.cor7 (BitVec.ofNat 4 (i + 1)) (c ^^^ 1#8 <<< i)) s = .next { s with rsp := { y := c } } ∧
      exec (.ext7 c) s = .next { s with rsp := { y := d } }

/-- The standard codec cannot detect a double error: it reports the third position `p xor q` and "corrects" to another
codeword; a word reads as error-free only if it is a codeword, and codewords differ in at least 3 positions (R109). -/
def Obligations.StandardMiscorrectsDoubleErrors : Prop :=
  (∀ (d : Byte) (p q : Nat) (s : State), d.toNat < 16 → 1 ≤ p → p ≤ 7 → 1 ≤ q → q ≤ 7 → p ≠ q →
    p ^^^ q ≠ 0 ∧ p ^^^ q ≠ p ∧ p ^^^ q ≠ q ∧
    ∃ c z c' d' : Byte, exec (.enc7 d) s = .next { s with rsp := { y := c } } ∧
      exec (.syn7 (c ^^^ 1#8 <<< (p - 1) ^^^ 1#8 <<< (q - 1))) s = .next { s with rsp := { y := z } } ∧
      exec (.epos7 z) s = .next { s with rsp := { pos := BitVec.ofNat 4 (p ^^^ q) } } ∧
      exec (.cor7 (BitVec.ofNat 4 (p ^^^ q)) (c ^^^ 1#8 <<< (p - 1) ^^^ 1#8 <<< (q - 1))) s =
        .next { s with rsp := { y := c' } } ∧
      exec (.ext7 c') s = .next { s with rsp := { y := d' } } ∧
      exec (.enc7 d') s = .next { s with rsp := { y := c' } } ∧ c' ≠ c ∧ d' ≠ d) ∧
  (∀ (r : Byte) (s : State), exec (.syn7 r) s = .next { s with rsp := { y := 0#8 } } →
    ∃ d : Byte, exec (.enc7 d) s = .next { s with rsp := { y := r } }) ∧
  ∀ (d e c c' : Byte) (s : State), d ≠ e → exec (.enc7 d) s = .next { s with rsp := { y := c } } →
    exec (.enc7 e) s = .next { s with rsp := { y := c' } } → 3 ≤ popcount (c ^^^ c')

/-! ### The Extended Codec -/

/-- `ENC8` (R121): the standard codeword with `p0`, the mod-2 sum of its seven bits, in front. -/
def Obligations.Enc8Result : Prop :=
  (∀ (idx : Nibble) (b a : Byte), decode (command 0x9#4 idx b a) = .enc8 a) ∧
  (∀ (d : Byte) (s : State), d.toNat < 2 ^ 4 →
    ∃ (c x : Byte) (p0 : Bool), c = multiply 7 4 matG d ∧
      p0 =
        (c.getLsbD 0 ^^ c.getLsbD 1 ^^ c.getLsbD 2 ^^ c.getLsbD 3 ^^ c.getLsbD 4 ^^ c.getLsbD 5 ^^ c.getLsbD 6) ∧
      x = vec
        [p0, c.getLsbD 0, c.getLsbD 1, c.getLsbD 2, c.getLsbD 3, c.getLsbD 4, c.getLsbD 5, c.getLsbD 6] ∧
      exec (.enc8 d) s = .next { s with rsp := { y := x } }) ∧
  (∀ (d : Byte) (s : State), 2 ^ 4 ≤ d.toNat →
    exec (.enc8 d) s = .next { s with rsp := { fault := true, cause := 2#3 } }) ∧
  ∀ s : State, s.cmd = 0x90000F#24 → step s = .next { s with rsp := { y := 0xFF#8 } }

/-- `SYN8` (R122). -/
def Obligations.Syn8Result : Prop :=
  (∀ (idx : Nibble) (b a : Byte), decode (command 0xA#4 idx b a) = .syn8 a) ∧
  (∀ (r z : Byte) (s : State),
    z = vec
      [r.getLsbD 1 ^^ r.getLsbD 3 ^^ r.getLsbD 5 ^^ r.getLsbD 7,
       r.getLsbD 2 ^^ r.getLsbD 3 ^^ r.getLsbD 6 ^^ r.getLsbD 7,
       r.getLsbD 4 ^^ r.getLsbD 5 ^^ r.getLsbD 6 ^^ r.getLsbD 7,
       r.getLsbD 0 ^^ r.getLsbD 1 ^^ r.getLsbD 2 ^^ r.getLsbD 3 ^^ r.getLsbD 4 ^^ r.getLsbD 5 ^^ r.getLsbD 6 ^^
         r.getLsbD 7] →
    multiply 4 8 matHx r = z ∧ exec (.syn8 r) s = .next { s with rsp := { y := z } }) ∧
  ∀ s : State, s.cmd = 0xA000DB#24 → step s = .next { s with rsp := { y := 0x07#8 } }

/-- `CLS8` (R123): the four rows of the decision table, `p0check = a[3]`, `syndromeValue = a[2:0]`. -/
def Obligations.Cls8Result : Prop :=
  (∀ (idx : Nibble) (b a : Byte), decode (command 0xB#4 idx b a) = .cls8 a) ∧
  (∀ (a : Byte) (s : State), a.toNat < 2 ^ 4 →
    (a.getLsbD 3 = false → a.toNat % 8 = 0 →
      exec (.cls8 a) s = .next { s with rsp := { etype := 0#2, pos := 0#4, cc := true } }) ∧
    (a.getLsbD 3 = true → a.toNat % 8 = 0 →
      exec (.cls8 a) s = .next { s with rsp := { etype := 1#2, pos := 0#4, cc := true } }) ∧
    (a.getLsbD 3 = true → a.toNat % 8 ≠ 0 →
      exec (.cls8 a) s = .next { s with rsp := { etype := 1#2, pos := BitVec.ofNat 4 (a.toNat % 8), cc := true } }) ∧
    (a.getLsbD 3 = false → a.toNat % 8 ≠ 0 →
      exec (.cls8 a) s = .next { s with rsp := { etype := 2#2, pos := 0#4, cc := false } })) ∧
  (∀ (a : Byte) (s : State), 2 ^ 4 ≤ a.toNat →
    exec (.cls8 a) s = .next { s with rsp := { fault := true, cause := 2#3 } }) ∧
  ∀ s : State, s.cmd = 0xB00007#24 → step s = .next { s with rsp := { etype := 2#2, pos := 0#4, cc := false } }

/-- `COR8` (R124): a negative position is the identity, a position `p` in 0..7 flips index `p`; it never faults. -/
def Obligations.Cor8Result : Prop :=
  (∀ (idx : Nibble) (b a : Byte), decode (command 0xC#4 idx b a) = .cor8 idx a) ∧
  (∀ (idx : Nibble) (r : Byte) (s : State),
    (idx.toInt < 0 → exec (.cor8 idx r) s = .next { s with rsp := { y := r } }) ∧
    (0 ≤ idx.toInt → exec (.cor8 idx r) s = .next { s with rsp := { y := r ^^^ 1#8 <<< idx.toInt.toNat } })) ∧
  (∀ s : State, s.cmd = 0xC500DF#24 → step s = .next { s with rsp := { y := 0xFF#8 } }) ∧
  ∀ s : State, s.cmd = 0xCF00DB#24 → step s = .next { s with rsp := { y := 0xDB#8 } }

/-- `EXT8` (R125): the projection to the indices {3,5,6,7}. -/
def Obligations.Ext8Result : Prop :=
  (∀ (idx : Nibble) (b a : Byte), decode (command 0xD#4 idx b a) = .ext8 a) ∧
  (∀ (c : Byte) (s : State),
    exec (.ext8 c) s = .next { s with rsp := { y := vec [c.getLsbD 3, c.getLsbD 5, c.getLsbD 6, c.getLsbD 7] } }) ∧
  ∀ s : State, s.cmd = 0xD000CC#24 → step s = .next { s with rsp := { y := 0x0D#8 } }

/-- What the spec derives in R121: `p0 = d1 ^ d2 ^ d3`, and every codeword has 0, 4 or 8 ones. -/
def Obligations.ExtendedCodewordWeight : Prop :=
  ∀ (d : Byte) (s : State), d.toNat < 16 →
    ∃ x : Byte, exec (.enc8 d) s = .next { s with rsp := { y := x } } ∧
      x.getLsbD 0 = (d.getLsbD 0 ^^ d.getLsbD 1 ^^ d.getLsbD 2) ∧
      (popcount x = 0 ∨ popcount x = 4 ∨ popcount x = 8)

/-- An extended codeword has a zero syndrome and gives its data back (R126). -/
def Obligations.ExtendedRoundTrip : Prop :=
  ∀ (d : Byte) (s : State), d.toNat < 16 →
    ∃ c : Byte, exec (.enc8 d) s = .next { s with rsp := { y := c } } ∧
      exec (.syn8 c) s = .next { s with rsp := { y := 0#8 } } ∧
      exec (.ext8 c) s = .next { s with rsp := { y := d } }

/-- Single errors are corrected, `i = 0` included, and double errors detected, every pair of them (R127). -/
def Obligations.ExtendedCorrectsOneDetectsTwo : Prop :=
  (∀ (d : Byte) (i : Nat) (s : State), d.toNat < 16 → i < 8 →
    ∃ c z : Byte, exec (.enc8 d) s = .next { s with rsp := { y := c } } ∧
      exec (.syn8 (c ^^^ 1#8 <<< i)) s = .next { s with rsp := { y := z } } ∧
      exec (.cls8 z) s = .next { s with rsp := { etype := 1#2, pos := BitVec.ofNat 4 i, cc := true } } ∧
      exec (.cor8 (BitVec.ofNat 4 i) (c ^^^ 1#8 <<< i)) s = .next { s with rsp := { y := c } } ∧
      exec (.ext8 c) s = .next { s with rsp := { y := d } }) ∧
  ∀ (d : Byte) (i j : Nat) (s : State), d.toNat < 16 → i < 8 → j < 8 → i ≠ j →
    ∃ c z : Byte, exec (.enc8 d) s = .next { s with rsp := { y := c } } ∧
      exec (.syn8 (c ^^^ 1#8 <<< i ^^^ 1#8 <<< j)) s = .next { s with rsp := { y := z } } ∧
      z.getLsbD 3 = false ∧ z.toNat % 8 = i ^^^ j ∧ i ^^^ j ≠ 0 ∧
      exec (.cls8 z) s = .next { s with rsp := { etype := 2#2, pos := 0#4, cc := false } }

/-- The XOR of the members of a set of positions. -/
def Sys2Proof.Machine.xorOfPositions (e : Byte) : Nat :=
  (List.range 8).foldl (fun acc i => if e.getLsbD i then acc ^^^ i else acc) 0

/-- Three or more flips, the set being `e`: an odd number is classified `single` at the XOR of the positions and "corrected" to
a different codeword, an even number is `double` when that XOR is not 0 and otherwise `none`, the received word then being
another codeword (R128). -/
def Obligations.ExtendedBeyondTwoFlips : Prop :=
  ∀ (d e : Byte) (s : State), d.toNat < 16 → 3 ≤ popcount e →
    ∃ c z : Byte, exec (.enc8 d) s = .next { s with rsp := { y := c } } ∧
      exec (.syn8 (c ^^^ e)) s = .next { s with rsp := { y := z } } ∧
      z.getLsbD 3 = decide (popcount e % 2 = 1) ∧ z.toNat % 8 = xorOfPositions e ∧
      (popcount e % 2 = 1 →
        exec (.cls8 z) s =
          .next { s with rsp := { etype := 1#2, pos := BitVec.ofNat 4 (xorOfPositions e), cc := true } } ∧
        ∃ c' d' : Byte, c' ≠ c ∧
          exec (.cor8 (BitVec.ofNat 4 (xorOfPositions e)) (c ^^^ e)) s = .next { s with rsp := { y := c' } } ∧
          exec (.enc8 d') s = .next { s with rsp := { y := c' } }) ∧
      (popcount e % 2 = 0 → xorOfPositions e ≠ 0 →
        exec (.cls8 z) s = .next { s with rsp := { etype := 2#2, pos := 0#4, cc := false } }) ∧
      (popcount e % 2 = 0 → xorOfPositions e = 0 →
        exec (.cls8 z) s = .next { s with rsp := { etype := 0#2, pos := 0#4, cc := true } } ∧
        ∃ d' : Byte, d' ≠ d ∧ exec (.enc8 d') s = .next { s with rsp := { y := c ^^^ e } })

/-- R184: the classifier returns position 0 with `none` and with `double`; passing that 0 to `COR8` flips the overall-parity
bit; any `idx` that keeps the obligation after such a report is the identity. -/
def Obligations.Cor8OnlyWhenSingle : Prop :=
  ∀ (r : Byte) (s : State), ∃ (z : Byte) (rep : Response),
    exec (.syn8 r) s = .next { s with rsp := { y := z } } ∧
    exec (.cls8 z) s = .next { s with rsp := rep } ∧
    (rep.etype ≠ 1#2 →
      rep.pos = 0#4 ∧
      exec (.cor8 rep.pos r) s = .next { s with rsp := { y := r ^^^ 1#8 } } ∧
      ∀ idx : Nibble, KeepsR184 rep idx → exec (.cor8 idx r) s = .next { s with rsp := { y := r } })

/-- Decoding under the caller's obligation R184: with at most one flip, the word that `COR8` gives is the codeword sent and
`EXT8` of it is the data; with two flips the word is left as received. -/
def Obligations.ExtendedDecodingUnderR184 : Prop :=
  ∀ (d e : Byte) (s : State), d.toNat < 16 → popcount e ≤ 2 →
    ∃ (c z : Byte) (rep : Response),
      exec (.enc8 d) s = .next { s with rsp := { y := c } } ∧
      exec (.syn8 (c ^^^ e)) s = .next { s with rsp := { y := z } } ∧
      exec (.cls8 z) s = .next { s with rsp := rep } ∧
      ∀ idx : Nibble, KeepsR184 rep idx →
        (popcount e ≤ 1 →
          exec (.cor8 idx (c ^^^ e)) s = .next { s with rsp := { y := c } } ∧
          exec (.ext8 c) s = .next { s with rsp := { y := d } }) ∧
        (popcount e = 2 → exec (.cor8 idx (c ^^^ e)) s = .next { s with rsp := { y := c ^^^ e } })

/-! ### The Error Injector -/

/-- `INJ7` (R141), for every draw: `r0 = rnd[2:0]`. That the draw `r0` selects position `r0 + 1` is the spec's decision D13. -/
def Obligations.Inj7Result : Prop :=
  (∀ (idx : Nibble) (b a : Byte), decode (command 0x6#4 idx b a) = .inj7 a) ∧
  (∀ (c : Byte) (s : State), c.toNat < 2 ^ 7 → s.rnd.toNat % 8 ≤ 6 →
    exec (.inj7 c) s = .next { s with rsp :=
      { y := c ^^^ 1#8 <<< (s.rnd.toNat % 8), pos := BitVec.ofNat 4 (s.rnd.toNat % 8 + 1),
        mask := 1#8 <<< (s.rnd.toNat % 8), cnt := 1#4 } }) ∧
  (∀ (c : Byte) (s : State), 2 ^ 7 ≤ c.toNat →
    exec (.inj7 c) s = .next { s with rsp := { fault := true, cause := 2#3 } }) ∧
  (∀ (c : Byte) (s : State), c.toNat < 2 ^ 7 → s.rnd.toNat % 8 = 7 →
    exec (.inj7 c) s = .next { s with rsp := { fault := true, cause := 6#3 } }) ∧
  ∀ s : State, s.cmd = 0x600066#24 → s.rnd = 0x04#6 →
    step s = .next { s with rsp := { y := 0x76#8, pos := 5#4, mask := 0x10#8, cnt := 1#4 } }

/-- `INJ8` (R142), for every draw: `r0 = rnd[2:0]`, `r1 = rnd[5:3]`, the second position being the `r1`-th of the seven left
(the spec's decision D13). -/
def Obligations.Inj8Result : Prop :=
  (∀ (idx : Nibble) (b a : Byte), decode (command 0xE#4 idx b a) = .inj8 idx a) ∧
  (∀ (c : Byte) (s : State),
    exec (.inj8 1#4 c) s = .next { s with rsp :=
      { y := c ^^^ 1#8 <<< (s.rnd.toNat % 8), pos := BitVec.ofNat 4 (s.rnd.toNat % 8), pos2 := 0#4,
        mask := 1#8 <<< (s.rnd.toNat % 8), cnt := 1#4 } }) ∧
  (∀ (c : Byte) (q0 q1 : Nat) (s : State), q0 = s.rnd.toNat % 8 → s.rnd.toNat / 8 ≤ 6 →
    q1 = (if s.rnd.toNat / 8 < q0 then s.rnd.toNat / 8 else s.rnd.toNat / 8 + 1) →
    exec (.inj8 2#4 c) s = .next { s with rsp :=
      { y := c ^^^ 1#8 <<< q0 ^^^ 1#8 <<< q1, pos := BitVec.ofNat 4 q0, pos2 := BitVec.ofNat 4 q1,
        mask := 1#8 <<< q0 ||| 1#8 <<< q1, cnt := 2#4 } }) ∧
  (∀ (idx : Nibble) (c : Byte) (s : State), idx ≠ 1#4 → idx ≠ 2#4 →
    exec (.inj8 idx c) s = .next { s with rsp := { fault := true, cause := 4#3 } }) ∧
  (∀ (c : Byte) (s : State), s.rnd.toNat / 8 = 7 →
    exec (.inj8 2#4 c) s = .next { s with rsp := { fault := true, cause := 6#3 } }) ∧
  ∀ s : State, s.cmd = 0xE200FF#24 → s.rnd = 0x22#6 →
    step s = .next { s with rsp := { y := 0xDB#8, pos := 2#4, pos2 := 5#4, mask := 0x24#8, cnt := 2#4 } }

/-- The legal draws of `INJ8` with count 2 map one to one onto the ordered pairs of distinct positions (R142, derived). -/
def Obligations.Inj8DrawsAreOrderedPairs : Prop :=
  (∀ (c : Byte) (s : State), s.rnd.toNat / 8 ≤ 6 →
    ∃ r : Response, exec (.inj8 2#4 c) s = .next { s with rsp := r } ∧
      r.pos.toNat ≤ 7 ∧ r.pos2.toNat ≤ 7 ∧ r.pos ≠ r.pos2 ∧ popcount (r.y ^^^ c) = 2) ∧
  ∀ (c : Byte) (p q : Nibble) (s : State), p.toNat ≤ 7 → q.toNat ≤ 7 → p ≠ q →
    ∃! rnd : RndWord, rnd.toNat / 8 ≤ 6 ∧
      ∃ r : Response, exec (.inj8 2#4 c) { s with rnd := rnd } = .next { s with rnd := rnd, rsp := r } ∧
        r.pos = p ∧ r.pos2 = q

/-- The manual flip, common part, `n` wires, cap `cap` (R143), said of one response `r'` to received word `a`, original `b` and
index `i`. -/
def Sys2Proof.Machine.ManualFlip (n cap : Nat) (a b : Byte) (i : Nat) (r' : Response) : Prop :=
  r' = { y := r'.y, mask := r'.mask, cnt := r'.cnt, acc := r'.acc } ∧
  (r'.acc = true ↔ a.getLsbD i ≠ b.getLsbD i ∨
    ((List.range n).filter fun j => a.getLsbD j != b.getLsbD j).length < cap) ∧
  r'.y = (if r'.acc then a ^^^ 1#8 <<< i else a) ∧
  (∀ j, j < 8 → r'.mask.getLsbD j = (decide (j < n) && (r'.y.getLsbD j != b.getLsbD j))) ∧
  r'.cnt.toNat = ((List.range n).filter fun j => r'.y.getLsbD j != b.getLsbD j).length

/-- `FLIP7` under cap 1 and `FLIP8` under cap 2 (R143, R144, R145). -/
def Obligations.FlipResults : Prop :=
  (∀ (idx : Nibble) (b a : Byte), decode (command 0x7#4 idx b a) = .flip7 idx b a ∧
    decode (command 0xF#4 idx b a) = .flip8 idx b a) ∧
  (∀ (idx : Nibble) (b a : Byte) (s : State), a.toNat < 2 ^ 7 → b.toNat < 2 ^ 7 → idx.toNat ≤ 6 →
    ∃ r, exec (.flip7 idx b a) s = .next { s with rsp := r } ∧ ManualFlip 7 1 a b idx.toNat r) ∧
  (∀ (idx : Nibble) (b a : Byte) (s : State), 2 ^ 7 ≤ a.toNat ∨ 2 ^ 7 ≤ b.toNat →
    exec (.flip7 idx b a) s = .next { s with rsp := { fault := true, cause := 2#3 } }) ∧
  (∀ (idx : Nibble) (b a : Byte) (s : State), a.toNat < 2 ^ 7 → b.toNat < 2 ^ 7 → 6 < idx.toNat →
    exec (.flip7 idx b a) s = .next { s with rsp := { fault := true, cause := 5#3 } }) ∧
  (∀ (idx : Nibble) (b a : Byte) (s : State), idx.toNat ≤ 7 →
    ∃ r, exec (.flip8 idx b a) s = .next { s with rsp := r } ∧ ManualFlip 8 2 a b idx.toNat r) ∧
  (∀ (idx : Nibble) (b a : Byte) (s : State), 7 < idx.toNat →
    exec (.flip8 idx b a) s = .next { s with rsp := { fault := true, cause := 5#3 } }) ∧
  (∀ s : State, s.cmd = 0x746666#24 →
    step s = .next { s with rsp := { y := 0x76#8, mask := 0x10#8, cnt := 1#4, acc := true } }) ∧
  (∀ s : State, s.cmd = 0x706676#24 →
    step s = .next { s with rsp := { y := 0x76#8, mask := 0x10#8, cnt := 1#4, acc := false } }) ∧
  (∀ s : State, s.cmd = 0xF5FFFB#24 →
    step s = .next { s with rsp := { y := 0xDB#8, mask := 0x24#8, cnt := 2#4, acc := true } }) ∧
  (∀ s : State, s.cmd = 0xF7FFDB#24 →
    step s = .next { s with rsp := { y := 0xDB#8, mask := 0x24#8, cnt := 2#4, acc := false } }) ∧
  ∀ s : State, s.cmd = 0xF2FFDB#24 →
    step s = .next { s with rsp := { y := 0xDF#8, mask := 0x20#8, cnt := 1#4, acc := true } }

/-- Manual flips never take the error set past the cap, and `cnt` is 0 exactly when the word is the original
(D15, R146). -/
def Obligations.ManualFlipsStayUnderTheCap : Prop :=
  (∀ (idx : Nibble) (b a : Byte) (s : State), a.toNat < 2 ^ 7 → b.toNat < 2 ^ 7 → idx.toNat ≤ 6 →
    popcount (a ^^^ b) ≤ 1 →
    ∃ r, exec (.flip7 idx b a) s = .next { s with rsp := r } ∧ r.y.toNat < 2 ^ 7 ∧
      popcount (r.y ^^^ b) ≤ 1 ∧ (r.cnt = 0#4 ↔ r.y = b)) ∧
  ∀ (idx : Nibble) (b a : Byte) (s : State), idx.toNat ≤ 7 → popcount (a ^^^ b) ≤ 2 →
    ∃ r, exec (.flip8 idx b a) s = .next { s with rsp := r } ∧
      popcount (r.y ^^^ b) ≤ 2 ∧ (r.cnt = 0#4 ↔ r.y = b)

/-! ### Host programs -/

/-- Runs end at the first fault, whatever transactions would follow; a run that ends otherwise has one response more for each
transaction, none of them faulted (R175). -/
def Obligations.RunsEndAtTheFirstFault : Prop :=
  (∀ (p q : List HostStep) (e : List Response) (s : State) (f : Fault),
    runHost p e s = .fault f → runHost (p ++ q) e s = .fault f) ∧
  ∀ (p : List HostStep) (e rs : List Response) (s : State), runHost p e s = .next rs →
    rs.take e.length = e ∧ rs.length = e.length + p.length ∧ ∀ r ∈ rs.drop e.length, r.fault = false

/-- A run does not depend on what the ports held before it: programs can be run in any order (R46, R180). -/
def Obligations.RunsDoNotDependOnThePorts : Prop :=
  ∀ (p : List HostStep) (e : List Response) (s t : State), runHost p e s = runHost p e t

/-- The macro `DEC7` (R73) gives the codeword, the data and the position back after at most one flip; with no flip it
reports 0. The form of a host program is the model's choice (log entry 13). -/
def Obligations.Dec7RecoversTheData : Prop :=
  ∀ (d : Byte) (s : State), d.toNat < 16 →
    ∃ c : Byte, exec (.enc7 d) s = .next { s with rsp := { y := c } } ∧
      (∃ r0 r1 r2 r3, runHost (dec7 c) [] s = .next [r0, r1, r2, r3] ∧
        r2.y = c ∧ r3.y = d ∧ r1.pos = 0#4) ∧
      ∀ i, i < 7 → ∃ r0 r1 r2 r3, runHost (dec7 (c ^^^ 1#8 <<< i)) [] s = .next [r0, r1, r2, r3] ∧
        r2.y = c ∧ r3.y = d ∧ r1.pos = BitVec.ofNat 4 (i + 1)

/-- The macro `DEC8` (R73) gives the data back after at most one flip, and after two reports `double` and leaves the word as
received; it never faults. The form of a host program is the model's choice (log entry 13). -/
def Obligations.Dec8RecoversOrDetects : Prop :=
  ∀ (d e : Byte) (s : State), d.toNat < 16 →
    ∃ c : Byte, exec (.enc8 d) s = .next { s with rsp := { y := c } } ∧
      ∃ r0 r1 r2 r3, runHost (dec8 (c ^^^ e)) [] s = .next [r0, r1, r2, r3] ∧
        (popcount e ≤ 1 → r2.y = c ∧ r3.y = d ∧ r1.cc = true ∧
          (e = 0#8 → r1.etype = 0#2) ∧ ∀ i, i < 8 → e = 1#8 <<< i → r1.etype = 1#2 ∧ r1.pos = BitVec.ofNat 4 i) ∧
        (popcount e = 2 → r1.etype = 2#2 ∧ r1.cc = false ∧ r2.y = c ^^^ e)

/-- Every operand of a transaction may come from earlier responses (R175): a matrix whose rows are words of earlier responses
has them as its rows, draws taken from earlier positions stand on their wires, and a run puts what the operands resolve to on
the three input ports. The form of a host program is the model's choice (log entry 13). -/
def Obligations.OperandsComeFromEarlierResponses : Prop :=
  (∀ (e : List Response) (ls : List Nat) (rs : List Response), ls.length ≤ 8 →
    ls.map (fun l => e[l]?) = rs.map some →
    ∃ m : MatWord, (HostOperand.rows (ls.map fun l => .field l .y)).wires? e 64 = some m ∧
      ∀ r c, c < 8 → m.getLsbD (8 * r + c) = ((rs.map fun q => q.y.getLsbD c).getD r false)) ∧
  (∀ (e : List Response) (l0 l1 : Nat) (q0 q1 : Response), e[l0]? = some q0 → e[l1]? = some q1 →
    q0.pos.toNat ≤ 7 → q1.pos.toNat ≤ 7 →
    ∃ d : RndWord, (HostOperand.draws (.field l0 .pos) (.field l1 .pos)).wires? e 6 = some d ∧
      d.toNat % 8 = q0.pos.toNat ∧ d.toNat / 8 = q1.pos.toNat) ∧
  ∀ (h : HostStep) (e : List Response) (s : State) (idx : Nibble) (b a : Byte) (mat : MatWord) (rnd : RndWord)
    (r : Response), h.idx.wires? e 4 = some idx → h.b.wires? e 8 = some b → h.a.wires? e 8 = some a →
    h.mat.wires? e 64 = some mat → h.rnd.wires? e 6 = some rnd →
    exec (decode (command h.op idx b a)) (s.present (command h.op idx b a) mat rnd) =
      .next { s.present (command h.op idx b a) mat rnd with rsp := r } → r.fault = false →
    runHost [h] e s = .next (e ++ [r])

/-- The macros of R73 placed after other transactions, the word taken from an earlier response or written: the run ends as the
macro alone does on that word, its responses after the earlier ones. That they may be so placed is the model's choice (log
entry 15). -/
def Obligations.DecodeMacrosFollowOtherTransactions : Prop :=
  ∀ (e : List Response) (src : HostSource) (r : Byte) (s : State), src.value? e = some r.toNat →
    (∀ rs, runHost (dec7 r) [] s = .next rs → runHost (dec7At e.length src) e s = .next (e ++ rs)) ∧
    (∀ f, runHost (dec7 r) [] s = .fault f → runHost (dec7At e.length src) e s = .fault f) ∧
    ∀ rs, runHost (dec8 r) [] s = .next rs → runHost (dec8At e.length src) e s = .next (e ++ rs)
end

