-- ==== Sys2Proof/Laws/Decode.lean ====
section
/-! SUPPORT. The fields of a command word put together from fields. -/

namespace Sys2Proof

/-- Wire `k` of a command word (R60). -/
theorem getLsbD_command (op idx : Nibble) (b a : Byte) (k : Nat) :
    (command op idx b a).getLsbD k =
      if k < 8 then a.getLsbD k
      else if k < 16 then b.getLsbD (k - 8)
      else if k < 20 then idx.getLsbD (k - 16)
      else op.getLsbD (k - 20) := by
  unfold command
  rw [BitVec.getLsbD_append, BitVec.getLsbD_append, BitVec.getLsbD_append]
  by_cases h1 : k < 8
  · simp [h1]
  · by_cases h2 : k < 16
    · have : k - 8 < 8 := by omega
      simp [h1, h2, this]
    · by_cases h3 : k < 20
      · have e1 : ¬ k - 8 < 8 := by omega
        have e2 : k - 8 - 8 < 4 := by omega
        have e3 : k - 8 - 8 = k - 16 := by omega
        have e4 : k - 16 < 4 := by omega
        simp [h1, h2, h3, e1, e3, e4]
      · have e1 : ¬ k - 8 < 8 := by omega
        have e3 : k - 8 - 8 = k - 16 := by omega
        have e4 : ¬ k - 16 < 4 := by omega
        have e5 : k - 16 - 4 = k - 20 := by omega
        simp [h1, h2, h3, e1, e3, e4, e5]

@[simp] theorem opField_command (op idx : Nibble) (b a : Byte) : opField (command op idx b a) = op := by
  refine BitVec.eq_of_getLsbD_eq fun k hk => ?_
  simp only [opField, BitVec.getLsbD_extractLsb', getLsbD_command]
  simp [hk, show ¬ 20 + k < 8 by omega, show ¬ 20 + k < 16 by omega]

@[simp] theorem idxField_command (op idx : Nibble) (b a : Byte) : idxField (command op idx b a) = idx := by
  refine BitVec.eq_of_getLsbD_eq fun k hk => ?_
  simp only [idxField, BitVec.getLsbD_extractLsb', getLsbD_command]
  simp [hk, show 16 + k < 20 by omega, show ¬ 16 + k < 8 by omega]

@[simp] theorem bField_command (op idx : Nibble) (b a : Byte) : bField (command op idx b a) = b := by
  refine BitVec.eq_of_getLsbD_eq fun k hk => ?_
  simp only [bField, BitVec.getLsbD_extractLsb', getLsbD_command]
  simp [hk, show 8 + k < 16 by omega]

@[simp] theorem aField_command (op idx : Nibble) (b a : Byte) : aField (command op idx b a) = a := by
  refine BitVec.eq_of_getLsbD_eq fun k hk => ?_
  simp only [aField, BitVec.getLsbD_extractLsb', getLsbD_command]
  simp [hk]

/-- Masking a command word masks its fields. -/
theorem command_and (op op' idx idx' : Nibble) (b b' a a' : Byte) :
    command op idx b a &&& command op' idx' b' a' = command (op &&& op') (idx &&& idx') (b &&& b') (a &&& a') := by
  refine BitVec.eq_of_getLsbD_eq fun k _ => ?_
  simp only [BitVec.getLsbD_and, getLsbD_command]
  split
  · rfl
  · split
    · rfl
    · split <;> rfl

theorem getLsbD_nibbles (cols rows : Nibble) (k : Nat) :
    (cols ++ rows : Byte).getLsbD k = if k < 4 then rows.getLsbD k else cols.getLsbD (k - 4) :=
  BitVec.getLsbD_append

@[simp] theorem rowsField_append (cols rows : Nibble) : rowsField (cols ++ rows) = rows := by
  refine BitVec.eq_of_getLsbD_eq fun k hk => ?_
  rw [rowsField, BitVec.getLsbD_extractLsb', getLsbD_nibbles]
  simp [hk]

@[simp] theorem colsField_append (cols rows : Nibble) : colsField (cols ++ rows) = cols := by
  refine BitVec.eq_of_getLsbD_eq fun k hk => ?_
  rw [colsField, BitVec.getLsbD_extractLsb', getLsbD_nibbles]
  simp [hk]

end Sys2Proof
end

