-- ==== Sys2Proof/Laws/State.lean ====
section
/-! SUPPORT. One lemma per field of State per update, so that no proof unfolds a record update. -/

namespace Sys2Proof.Machine

@[simp] theorem State.drive_cmd (r : Response) (s : State) : (s.drive r).cmd = s.cmd := rfl
@[simp] theorem State.drive_mat (r : Response) (s : State) : (s.drive r).mat = s.mat := rfl
@[simp] theorem State.drive_rnd (r : Response) (s : State) : (s.drive r).rnd = s.rnd := rfl
@[simp] theorem State.drive_rsp (r : Response) (s : State) : (s.drive r).rsp = r := rfl
@[simp] theorem State.drive_drive (r q : Response) (s : State) : (s.drive r).drive q = s.drive q := rfl

@[simp] theorem State.present_cmd (w : CmdWord) (m : MatWord) (d : RndWord) (s : State) :
    (s.present w m d).cmd = w := rfl
@[simp] theorem State.present_mat (w : CmdWord) (m : MatWord) (d : RndWord) (s : State) :
    (s.present w m d).mat = m := rfl
@[simp] theorem State.present_rnd (w : CmdWord) (m : MatWord) (d : RndWord) (s : State) :
    (s.present w m d).rnd = d := rfl
@[simp] theorem State.present_rsp (w : CmdWord) (m : MatWord) (d : RndWord) (s : State) :
    (s.present w m d).rsp = s.rsp := rfl

@[simp] theorem State.withFetchWord_cmd (s : State) (n w : Nat) :
    (s.withFetchWord n w).cmd = BitVec.ofNat 24 (w % 2 ^ n) := rfl
@[simp] theorem State.withFetchWord_mat (s : State) (n w : Nat) : (s.withFetchWord n w).mat = s.mat := rfl
@[simp] theorem State.withFetchWord_rnd (s : State) (n w : Nat) : (s.withFetchWord n w).rnd = s.rnd := rfl
@[simp] theorem State.withFetchWord_rsp (s : State) (n w : Nat) : (s.withFetchWord n w).rsp = s.rsp := rfl

@[simp] theorem fetch_eq (s : State) : fetch s = s.cmd := rfl

/-- The response at reset is the `DIM` fault. -/
theorem reset_rsp : State.reset.rsp = Response.faulted .dim := rfl

end Sys2Proof.Machine
end

