-- ==== Sys2Proof/Laws/Exec.lean ====
section
/-! SUPPORT. One lemma per meaning: the next state it answers, as one response driven on the ports. -/

namespace Sys2Proof.Machine

/-- The shape of every checked meaning: a fault or a response. -/
theorem raise_or_respond (p : Prop) [Decidable p] (c : Cause) (r : Response) (s : State) :
    (if p then raiseFault c s else respond r s) = .next (s.drive (if p then Response.faulted c else r)) := by
  split <;> rfl

theorem execGfmul_eq (rows cols : Nibble) (a : Byte) (s : State) :
    execGfmul rows cols a s = .next (s.drive (if gfmulMismatch (uint rows) (uint cols) a s.mat
      then Response.faulted .dim else { y := multiply (uint rows) (uint cols) s.mat a })) :=
  raise_or_respond ..

theorem execEnc7_eq (a : Byte) (s : State) :
    execEnc7 a s = .next (s.drive (if tooWide 4 a then Response.faulted .operandWidth else { y := encode7 a })) :=
  raise_or_respond ..

theorem execSyn7_eq (a : Byte) (s : State) :
    execSyn7 a s = .next (s.drive (if tooWide 7 a then Response.faulted .operandWidth else { y := syndrome7 a })) :=
  raise_or_respond ..

theorem execEpos7_eq (a : Byte) (s : State) :
    execEpos7 a s = .next (s.drive (if tooWide 3 a then Response.faulted .operandWidth
      else { pos := toField (syndromeValue a) })) :=
  raise_or_respond ..

theorem execCor7_eq (idx : Nibble) (a : Byte) (s : State) :
    execCor7 idx a s = .next (s.drive (if tooWide 7 a then Response.faulted .operandWidth
      else if 7 < uint idx then Response.faulted .position else { y := correct7 a (uint idx) })) := by
  unfold execCor7
  rw [raise_or_respond]
  split <;> simp_all [raiseFault, respond, Config.codeBits7]

theorem execExt7_eq (a : Byte) (s : State) :
    execExt7 a s = .next (s.drive (if tooWide 7 a then Response.faulted .operandWidth
      else { y := project dataIndices7 a })) :=
  raise_or_respond ..

theorem execInj7_eq (a : Byte) (s : State) :
    execInj7 a s = .next (s.drive (if tooWide 7 a then Response.faulted .operandWidth
      else if 6 < draw0 s.rnd then Response.faulted .rngRange
      else { y := flipBit a (draw0 s.rnd), pos := toField (draw0 s.rnd + 1), mask := single (draw0 s.rnd),
             cnt := 1#4 })) := by
  unfold execInj7
  rw [raise_or_respond]
  split <;> simp_all [raiseFault, respond, Config.codeBits7]

theorem execFlip7_eq (idx : Nibble) (b a : Byte) (s : State) :
    execFlip7 idx b a s = .next (s.drive (if tooWide 7 a || tooWide 7 b then Response.faulted .operandWidth
      else if 6 < uint idx then Response.faulted .position else flipResponse 7 1 a b (uint idx))) := by
  unfold execFlip7
  rw [raise_or_respond]
  split <;> simp_all [raiseFault, respond, Config.codeBits7, Config.flipCap7]

theorem execIllegal8_eq (s : State) : execIllegal8 s = .next (s.drive (Response.faulted .illegalOp)) := rfl

theorem execEnc8_eq (a : Byte) (s : State) :
    execEnc8 a s = .next (s.drive (if tooWide 4 a then Response.faulted .operandWidth else { y := encode8 a })) :=
  raise_or_respond ..

theorem execSyn8_eq (a : Byte) (s : State) : execSyn8 a s = .next (s.drive { y := syndrome8 a }) := rfl

theorem execCls8_eq (a : Byte) (s : State) :
    execCls8 a s = .next (s.drive (if tooWide 4 a then Response.faulted .operandWidth
      else { etype := (classify a).etype.code, pos := (classify a).pos, cc := (classify a).cc })) :=
  raise_or_respond ..

theorem execCor8_eq (idx : Nibble) (a : Byte) (s : State) :
    execCor8 idx a s = .next (s.drive { y := correct8 a (sint4 idx) }) := rfl

theorem execExt8_eq (a : Byte) (s : State) : execExt8 a s = .next (s.drive { y := project dataIndices8 a }) := rfl

theorem execInj8_eq (idx : Nibble) (a : Byte) (s : State) :
    execInj8 idx a s = .next (s.drive (if uint idx < 1 || 2 < uint idx then Response.faulted .count
      else if uint idx = 1 then inj8One a (draw0 s.rnd)
      else if 6 < draw1 s.rnd then Response.faulted .rngRange
      else inj8Two a (draw0 s.rnd) (secondPosition (draw0 s.rnd) (draw1 s.rnd)))) := by
  unfold execInj8
  rw [raise_or_respond]
  split
  · rfl
  · split <;> rfl

theorem execFlip8_eq (idx : Nibble) (b a : Byte) (s : State) :
    execFlip8 idx b a s = .next (s.drive (if 7 < uint idx then Response.faulted .position
      else flipResponse 8 2 a b (uint idx))) :=
  raise_or_respond ..

end Sys2Proof.Machine
end

