-- ==== Sys2Proof/Laws/HostProgram.lean ====
section
/-! SUPPORT. What the host copies, and what one transaction of a run does. -/

namespace Sys2Proof.Machine

/-- The wires of an operand carry its number, which fits them. -/
theorem wires?_eq_some {e : List Response} {w : Nat} {o : HostOperand} {v : BitVec w} :
    o.wires? e w = some v ↔ ∃ n, o.value? e = some n ∧ n < 2 ^ w ∧ BitVec.ofNat w n = v := by
  unfold HostOperand.wires?
  cases o.value? e with
  | none => simp
  | some n => by_cases h : n < 2 ^ w <;> simp [h]

/-- What a source gives stays what it gives when responses are added. -/
theorem HostSource.value?_append {e : List Response} {src : HostSource} {n : Nat} (x : List Response)
    (h : src.value? e = some n) : src.value? (e ++ x) = some n := by
  have hget {label : Nat} {r : Response} (hr : e[label]? = some r) : (e ++ x)[label]? = some r := by
    obtain ⟨hlt, rfl⟩ := List.getElem?_eq_some_iff.mp hr
    rw [List.getElem?_append_left hlt, List.getElem?_eq_getElem hlt]
  cases src with
  | value _ => exact h
  | field label f =>
    obtain ⟨r, hr, hv⟩ := Option.map_eq_some_iff.mp h
    exact Option.map_eq_some_iff.mpr ⟨r, hget hr, hv⟩
  | posIfSingle label =>
    obtain ⟨r, hr, hv⟩ := Option.map_eq_some_iff.mp h
    exact Option.map_eq_some_iff.mpr ⟨r, hget hr, hv⟩

/-- A part stands below the parts after it. -/
theorem partsValue?_cons {e : List Response} {w n m : Nat} {src : HostSource} {rest : List (Nat × HostSource)}
    (hs : src.value? e = some n) (hr : partsValue? e rest = some m) (hn : n < 2 ^ w) :
    partsValue? e ((w, src) :: rest) = some (n + 2 ^ w * m) := by
  simp [partsValue?, hs, hr, hn]

/-- Parts fit the wires they take together. -/
theorem partsValue?_lt {e : List Response} {l : List (Nat × HostSource)} {n : Nat} (h : partsValue? e l = some n) :
    n < 2 ^ (l.map Prod.fst).sum := by
  induction l generalizing n with
  | nil =>
    cases h
    exact Nat.one_pos
  | cons p rest ih =>
    obtain ⟨w, src⟩ := p
    simp only [partsValue?] at h
    split at h
    · rename_i k m _ hm
      split at h
      · rename_i hk
        cases h
        have hlt := ih hm
        rw [List.map_cons, List.sum_cons, Nat.pow_add]
        calc k + 2 ^ w * m < 2 ^ w * (m + 1) := by rw [Nat.mul_add]; omega
          _ ≤ 2 ^ w * 2 ^ (rest.map Prod.fst).sum := Nat.mul_le_mul_left _ hlt
      · cases h
    · cases h

/-- The inputs of a transaction are its three ports, each resolved. -/
theorem inputs?_eq_some {e : List Response} {h : HostStep} {cmd : CmdWord} {mat : MatWord} {rnd : RndWord} :
    h.inputs? e = some (cmd, mat, rnd) ↔
      h.command? e = some cmd ∧ h.mat.wires? e 64 = some mat ∧ h.rnd.wires? e 6 = some rnd := by
  unfold HostStep.inputs?
  cases h.command? e <;> cases h.mat.wires? e 64 <;> cases h.rnd.wires? e 6 <;> simp

@[simp] theorem runHost_nil (e : List Response) (s : State) : runHost [] e s = .next e := rfl

theorem runHost_cons_refused {e : List Response} {h : HostStep} (p : List HostStep) (s : State)
    (hi : h.inputs? e = none) : runHost (h :: p) e s = .refused .notAHostProgram := by
  simp [runHost, hi]

theorem runHost_cons_next {e : List Response} {h : HostStep} {cmd : CmdWord} {mat : MatWord} {rnd : RndWord}
    {s t : State} (p : List HostStep) (hi : h.inputs? e = some (cmd, mat, rnd))
    (ht : transact cmd mat rnd s = .next t) : runHost (h :: p) e s = runHost p (e ++ [t.rsp]) t := by
  simp [runHost, hi, ht]

theorem runHost_cons_fault {e : List Response} {h : HostStep} {cmd : CmdWord} {mat : MatWord} {rnd : RndWord}
    {s : State} {f : Fault} (p : List HostStep) (hi : h.inputs? e = some (cmd, mat, rnd))
    (ht : transact cmd mat rnd s = .fault f) : runHost (h :: p) e s = .fault f := by
  simp [runHost, hi, ht]

end Sys2Proof.Machine
end

