-- ==== Sys2Proof/Laws/Ops.lean ====
section
/-! SUPPORT. One lemma per shared operation that says what it can do. -/

namespace Sys2Proof.Machine

theorem respond_eq (r : Response) (s : State) : respond r s = .next (s.drive r) := rfl

theorem raiseFault_eq (c : Cause) (s : State) : raiseFault c s = .next (s.drive (Response.faulted c)) := rfl

theorem respond_next {r : Response} {s t : State} (h : respond r s = .next t) : t = s.drive r := by
  simpa [respond] using h.symm

theorem raiseFault_next {c : Cause} {s t : State} (h : raiseFault c s = .next t) :
    t = s.drive (Response.faulted c) := respond_next h

/-- A faulted response names its cause (R160, R161). -/
@[simp] theorem faultCause_faulted (c : Cause) : (Response.faulted c).faultCause = some c := by
  cases c <;> rfl

@[simp] theorem Cause.ofCode_code (c : Cause) : Cause.ofCode c.code = some c := by cases c <;> rfl

/-- Element `i` of a packed vector. -/
theorem getLsbD_packBits (n : Nat) (f : Nat → Bool) (i : Nat) :
    (packBits n f).getLsbD i = (decide (i < n) && decide (i < 8) && f i) := by
  induction n with
  | zero => simp [packBits]
  | succ n ih =>
    rw [packBits, BitVec.getLsbD_or, ih]
    by_cases hf : f n
    · simp only [hf, if_true, BitVec.getLsbD_shiftLeft]
      by_cases hi : i = n
      · subst hi; simp [hf]
      · have hne : i - n ≠ 0 ∨ i < n := by omega
        rcases Nat.lt_or_ge i n with h | h
        · simp [h, Nat.lt_succ_of_lt h]
        · have : i - n ≠ 0 := by omega
          have h2 : ¬ i < n + 1 := by omega
          simp [BitVec.getLsbD_one, this, h2, Nat.not_lt.mpr h]
    · simp only [hf]
      by_cases hi : i = n
      · subst hi; simp [hf]
      · have : (i < n + 1) = (i < n) := by simp only [eq_iff_iff]; omega
        simp [this]

/-- Equal elements give equal vectors. -/
theorem packBits_congr {n : Nat} {f g : Nat → Bool} (h : ∀ i, i < n → f i = g i) :
    packBits n f = packBits n g := by
  induction n with
  | zero => rfl
  | succ n ih => rw [packBits, packBits, ih fun i hi => h i (by omega), h n (by omega)]

/-- `XOR_j (e(j) ^ g(j)) = XOR_j e(j) ^ XOR_j g(j)`. -/
theorem xorSum_xor (n : Nat) (e g : Nat → Bool) :
    xorSum n (fun j => e j ^^ g j) = (xorSum n e ^^ xorSum n g) := by
  induction n with
  | zero => rfl
  | succ n ih => simp only [xorSum, ih]; cases xorSum n e <;> cases xorSum n g <;> cases e n <;> cases g n <;> rfl

theorem xorSum_congr {n : Nat} {e g : Nat → Bool} (h : ∀ j, j < n → e j = g j) : xorSum n e = xorSum n g := by
  induction n with
  | zero => rfl
  | succ n ih => rw [xorSum, xorSum, ih fun i hi => h i (by omega), h n (by omega)]

@[simp] theorem xorSum_false (n : Nat) : xorSum n (fun _ => false) = false := by
  induction n with
  | zero => rfl
  | succ n ih => simp [xorSum, ih]

theorem countTrue_le (n : Nat) (e : Nat → Bool) : countTrue n e ≤ n := by
  induction n with
  | zero => exact Nat.le_refl 0
  | succ n ih => simp only [countTrue]; split <;> omega

/-- The product has one element per row (R90). -/
theorem getLsbD_multiply (rows cols : Nat) (m : MatWord) (v : Byte) (r : Nat) :
    (multiply rows cols m v).getLsbD r =
      (decide (r < rows) && decide (r < 8) && xorSum cols fun c => entry m r c && v.getLsbD c) :=
  getLsbD_packBits ..

theorem getLsbD_single (i j : Nat) : (single i).getLsbD j = (decide (j < 8) && decide (j = i)) := by
  simp only [single, BitVec.getLsbD_shiftLeft, BitVec.getLsbD_one]
  by_cases h : j = i
  · subst h; simp
  · rcases Nat.lt_or_ge j i with h' | h'
    · simp [h', h]
    · have : j - i ≠ 0 := by omega
      simp [this, h]

/-- `flip(v, i)` differs from `v` at `i` only. -/
theorem getLsbD_flipBit (v : Byte) (i j : Nat) :
    (flipBit v i).getLsbD j = (v.getLsbD j ^^ (decide (j < 8) && decide (j = i))) := by
  simp [flipBit, getLsbD_single]

@[simp] theorem flipBit_flipBit (v : Byte) (i : Nat) : flipBit (flipBit v i) i = v := by
  simp [flipBit]

theorem getLsbD_errorSet (n : Nat) (r o : Byte) (j : Nat) :
    (errorSet n r o).getLsbD j = (decide (j < n) && decide (j < 8) && (r.getLsbD j != o.getLsbD j)) :=
  getLsbD_packBits ..

/-- A vector is too wide for its length exactly when its unsigned value needs more wires (R43). -/
theorem tooWide_eq (len : Nat) (v : Byte) : tooWide len v = decide (2 ^ len ≤ v.toNat) := by
  have h : (v >>> len = 0#8) ↔ v.toNat / 2 ^ len = 0 := by
    rw [← BitVec.toNat_inj, BitVec.toNat_ushiftRight, Nat.shiftRight_eq_div_pow]
    simp
  have hpos : 0 < 2 ^ len := Nat.two_pow_pos len
  rw [Nat.div_eq_zero_iff_lt hpos] at h
  unfold tooWide
  by_cases hv : v.toNat < 2 ^ len
  · simp [h.mpr hv, Nat.not_le.mpr hv]
  · have : v >>> len ≠ 0#8 := fun e => hv (h.mp e)
    simp [this, Nat.not_lt.mp hv]

theorem draw0_eq (rnd : RndWord) : draw0 rnd = rnd.toNat % 8 := by
  simp [draw0, BitVec.extractLsb'_toNat]

theorem draw1_eq (rnd : RndWord) : draw1 rnd = rnd.toNat / 8 := by
  have := rnd.isLt
  simp only [draw1, BitVec.extractLsb'_toNat, Nat.shiftRight_eq_div_pow]
  omega

theorem matG_eq : matG = 0x000804020E010D0B#64 := by decide
theorem matH_eq : matH = 0x0000000000786655#64 := by decide
theorem matHx_eq : matHx = 0x00000000FFF0CCAA#64 := by decide

end Sys2Proof.Machine
end

