-- ==== Sys2Proof/Laws/PerInstr.lean ====
section
/-! SUPPORT. The family `EncodesOp`: what holds of the encoding of every instruction, one lemma per constructor. -/

namespace Sys2Proof.Laws.EncodesOp

/-- The word of an instruction carries its operation code (R63), sets no bit that the operation does not read (R66), and
every word that agrees with it in the bits read is of the same operation (R65). -/
def Statement (i : Instr) : Prop :=
  opField (encode i) = i.op ∧ encode i &&& readMask i.op = encode i ∧
    ∀ w : CmdWord, w &&& readMask i.op = encode i → opField w = i.op

/-- The operation code of a word survives a mask that reads it. -/
theorem op_of_mask {w v m : CmdWord} (hm : m &&& 0xF00000#24 = 0xF00000#24) (h : w &&& m = v) : opField w = opField v := by
  subst h
  refine BitVec.eq_of_getLsbD_eq fun k hk => ?_
  have hb : m.getLsbD (20 + k) = true := by
    have := congrArg (fun x => x.getLsbD (20 + k)) hm
    have hk' : k = 0 ∨ k = 1 ∨ k = 2 ∨ k = 3 := by omega
    rcases hk' with rfl | rfl | rfl | rfl <;> simpa using this
  simp [opField, BitVec.getLsbD_extractLsb', hb]

/-- What is left to check of an instruction whose word is `command op idx b a` and whose mask is `command 0xF mi mb ma`. -/
theorem of_command {i : Instr} {idx mi : Nibble} {b a mb ma : Byte} (he : encode i = command i.op idx b a)
    (hm : readMask i.op = command 0xF#4 mi mb ma) (hi : idx &&& mi = idx) (hb : b &&& mb = b) (ha : a &&& ma = a) :
    Statement i := by
  have hop : i.op &&& 0xF#4 = i.op := BitVec.and_allOnes
  refine ⟨by rw [he, opField_command], by rw [he, hm, command_and, hop, hi, hb, ha], fun w hw => ?_⟩
  have hread : readMask i.op &&& 0xF00000#24 = 0xF00000#24 := by
    rw [hm, show 0xF00000#24 = command 0xF#4 0#4 0#8 0#8 from rfl, command_and]
    simp
  rw [op_of_mask hread hw, he, opField_command]

theorem gfmul (rows cols : Nibble) (a : Byte) : Statement (.gfmul rows cols a) :=
  of_command (mi := 0#4) (mb := 0xFF#8) (ma := 0xFF#8) rfl rfl rfl BitVec.and_allOnes BitVec.and_allOnes

theorem enc7 (a : Byte) : Statement (.enc7 a) :=
  of_command (mi := 0#4) (mb := 0#8) (ma := 0xFF#8) rfl rfl rfl rfl BitVec.and_allOnes

theorem syn7 (a : Byte) : Statement (.syn7 a) :=
  of_command (mi := 0#4) (mb := 0#8) (ma := 0xFF#8) rfl rfl rfl rfl BitVec.and_allOnes

theorem epos7 (a : Byte) : Statement (.epos7 a) :=
  of_command (mi := 0#4) (mb := 0#8) (ma := 0xFF#8) rfl rfl rfl rfl BitVec.and_allOnes

theorem cor7 (idx : Nibble) (a : Byte) : Statement (.cor7 idx a) :=
  of_command (mi := 0xF#4) (mb := 0#8) (ma := 0xFF#8) rfl rfl BitVec.and_allOnes rfl BitVec.and_allOnes

theorem ext7 (a : Byte) : Statement (.ext7 a) :=
  of_command (mi := 0#4) (mb := 0#8) (ma := 0xFF#8) rfl rfl rfl rfl BitVec.and_allOnes

theorem inj7 (a : Byte) : Statement (.inj7 a) :=
  of_command (mi := 0#4) (mb := 0#8) (ma := 0xFF#8) rfl rfl rfl rfl BitVec.and_allOnes

theorem flip7 (idx : Nibble) (b a : Byte) : Statement (.flip7 idx b a) :=
  of_command (mi := 0xF#4) (mb := 0xFF#8) (ma := 0xFF#8) rfl rfl BitVec.and_allOnes BitVec.and_allOnes BitVec.and_allOnes

theorem illegal8 : Statement .illegal8 :=
  of_command (mi := 0#4) (mb := 0#8) (ma := 0#8) rfl rfl rfl rfl rfl

theorem enc8 (a : Byte) : Statement (.enc8 a) :=
  of_command (mi := 0#4) (mb := 0#8) (ma := 0xFF#8) rfl rfl rfl rfl BitVec.and_allOnes

theorem syn8 (a : Byte) : Statement (.syn8 a) :=
  of_command (mi := 0#4) (mb := 0#8) (ma := 0xFF#8) rfl rfl rfl rfl BitVec.and_allOnes

theorem cls8 (a : Byte) : Statement (.cls8 a) :=
  of_command (mi := 0#4) (mb := 0#8) (ma := 0xFF#8) rfl rfl rfl rfl BitVec.and_allOnes

theorem cor8 (idx : Nibble) (a : Byte) : Statement (.cor8 idx a) :=
  of_command (mi := 0xF#4) (mb := 0#8) (ma := 0xFF#8) rfl rfl BitVec.and_allOnes rfl BitVec.and_allOnes

theorem ext8 (a : Byte) : Statement (.ext8 a) :=
  of_command (mi := 0#4) (mb := 0#8) (ma := 0xFF#8) rfl rfl rfl rfl BitVec.and_allOnes

theorem inj8 (idx : Nibble) (a : Byte) : Statement (.inj8 idx a) :=
  of_command (mi := 0xF#4) (mb := 0#8) (ma := 0xFF#8) rfl rfl BitVec.and_allOnes rfl BitVec.and_allOnes

theorem flip8 (idx : Nibble) (b a : Byte) : Statement (.flip8 idx b a) :=
  of_command (mi := 0xF#4) (mb := 0xFF#8) (ma := 0xFF#8) rfl rfl BitVec.and_allOnes BitVec.and_allOnes BitVec.and_allOnes

end Sys2Proof.Laws.EncodesOp
end

