-- ==== Sys2Proof/Tests/Slice0.lean ====
section
/-! SUPPORT. Tests. The expected responses are the test vectors of `spec/95_test_vectors.md` (S) and
`spec/96_test_vectors_derived.md` (X); the words decoded are written out from `spec/30_encoding.md` R60, R63. -/

namespace Sys2Proof.Tests

open Sys2Proof.Machine

/-- The ports with inputs of one's choice and an old response on them that no test may see again. -/
def ports (cmd : CmdWord) (mat : MatWord := 0#64) (rnd : RndWord := 0#6) : State :=
  { cmd := cmd, mat := mat, rnd := rnd, rsp := { y := 0xA5#8, cc := true } }

/-- The packed response after one step (R68). -/
def answer (s : State) : Option Nat :=
  match step s with
  | .next t => some t.rsp.packed.toNat
  | _ => none

/-- The response of an instruction. -/
def after (i : Instr) (s : State) : Option Response :=
  match exec i s with
  | .next t => some t.rsp
  | _ => none

/-- The responses of a host run that ends after its last transaction. -/
def responses (p : List HostStep) : Option (List Response) :=
  match runHost p [] (ports 0#24) with
  | .next rs => some rs
  | _ => none

/-- The cause a host run ends at. -/
def endsAt (p : List HostStep) : Option Cause :=
  match runHost p [] (ports 0#24) with
  | .fault (.precondition c) => some c
  | _ => none

/-! ### Decoding, words written out bit by bit -/

theorem test_decode_gfmul : decode 0b0000_0000_0100_0111_0000_1101#24 = .gfmul 7#4 4#4 0b00001101#8 := by decide
theorem test_decode_enc7 : decode 0b0001_0000_0000_0000_0000_1101#24 = .enc7 0b00001101#8 := by decide
theorem test_decode_syn7 : decode 0b0010_1010_0101_0101_0111_0110#24 = .syn7 0b01110110#8 := by decide
theorem test_decode_epos7 : decode 0b0011_0111_1111_1111_0000_0101#24 = .epos7 0b00000101#8 := by decide
theorem test_decode_cor7 : decode 0b0100_0101_1010_1011_0111_0110#24 = .cor7 5#4 0b01110110#8 := by decide
theorem test_decode_ext7 : decode 0b0101_0000_0000_0000_0110_0110#24 = .ext7 0b01100110#8 := by decide
theorem test_decode_inj7 : decode 0b0110_0000_0000_0000_0110_0110#24 = .inj7 0b01100110#8 := by decide
theorem test_decode_flip7 : decode 0b0111_0100_0110_0111_0110_0110#24 = .flip7 4#4 0b01100111#8 0b01100110#8 := by decide
theorem test_decode_illegal8 : decode 0b1000_0001_0010_0011_0100_0101#24 = .illegal8 := by decide
theorem test_decode_enc8 : decode 0b1001_0000_0000_0000_0000_1111#24 = .enc8 0b00001111#8 := by decide
theorem test_decode_syn8 : decode 0b1010_0011_1100_0011_1101_1011#24 = .syn8 0b11011011#8 := by decide
theorem test_decode_cls8 : decode 0b1011_1111_1001_1001_0000_0111#24 = .cls8 0b00000111#8 := by decide
theorem test_decode_cor8 : decode 0b1100_1111_0000_0000_1101_1011#24 = .cor8 0b1111#4 0b11011011#8 := by decide
theorem test_decode_ext8 : decode 0b1101_0111_0001_0010_1100_1100#24 = .ext8 0b11001100#8 := by decide
theorem test_decode_inj8 : decode 0b1110_0010_0000_0000_1111_1111#24 = .inj8 2#4 0b11111111#8 := by decide
theorem test_decode_flip8 : decode 0b1111_0101_1111_1111_1111_1011#24 = .flip8 5#4 0b11111111#8 0b11111011#8 := by decide

/-- A word is 24 bits; a set bit above them is refused by name (log entry 12). -/
theorem test_decode_longer_word :
    decodeTableWord 24 0x10000D = some (.enc7 0x0D#8) ∧ decodeTableWord 32 0x0110000D = none := by decide

/-! ### Well-formedness: one ill-formed command for each check -/

theorem test_ill_formed :
    [Instr.gfmul 0#4 4#4 1#8, .gfmul 9#4 4#4 1#8, .gfmul 7#4 0#4 0#8, .gfmul 7#4 9#4 0#8, .gfmul 7#4 4#4 0x10#8,
     .enc7 0x10#8, .syn7 0x80#8, .epos7 0x08#8, .cor7 0#4 0x80#8, .cor7 8#4 0x66#8, .ext7 0x80#8, .inj7 0x80#8,
     .flip7 0#4 0x66#8 0xE6#8, .flip7 0#4 0xE6#8 0x66#8, .flip7 7#4 0x66#8 0x66#8, .illegal8, .enc8 0x10#8,
     .cls8 0x10#8, .inj8 0#4 0xFF#8, .inj8 3#4 0xFF#8, .flip8 8#4 0xFF#8 0xFF#8].all (fun i => !i.wellFormed) = true := by
  decide

theorem test_well_formed :
    [Instr.gfmul 1#4 1#4 1#8, .gfmul 8#4 8#4 0xFF#8, .enc7 0x0F#8, .syn7 0x7F#8, .epos7 0x07#8, .cor7 7#4 0x7F#8,
     .ext7 0x7F#8, .inj7 0x7F#8, .flip7 6#4 0x7F#8 0x7F#8, .enc8 0x0F#8, .syn8 0xFF#8, .cls8 0x0F#8, .cor8 15#4 0xFF#8,
     .ext8 0xFF#8, .inj8 1#4 0xFF#8, .inj8 2#4 0xFF#8, .flip8 7#4 0xFF#8 0xFF#8].all Instr.wellFormed = true := by
  decide

/-! ### One step: the test vectors -/

/-- X44. -/
theorem test_gfmul_extended_syndrome : answer (ports 0x0084DB#24 0x00000000FFF0CCAA#64) = some 0x000000007 := by decide

/-- X59. -/
theorem test_gfmul_stray_matrix_row : answer (ports 0x00460D#24 0x000804020E010D0B#64) = some 0x700000000 := by decide

/-- S1. -/
theorem test_enc7_worked_example : answer (ports 0x10000D#24) = some 0x000000066 := by decide

/-- X103. -/
theorem test_enc7_wide_operand : answer (ports 0x100010#24) = some 0x500000000 := by decide

/-- X20. -/
theorem test_syn7_last_column : answer (ports 0x200040#24) = some 0x000000007 := by decide

/-- X115. -/
theorem test_syn7_unread_fields : answer (ports 0x2A5576#24 0xFFFFFFFFFFFFFFFF#64 0x3F#6) = some 0x000000005 := by decide

/-- X11. -/
theorem test_epos7_asymmetric : answer (ports 0x300003#24) = some 0x000030000 := by decide

/-- X106. -/
theorem test_epos7_wide_operand : answer (ports 0x300008#24) = some 0x500000000 := by decide

/-- X28. -/
theorem test_cor7_highest_position : answer (ports 0x47007F#24) = some 0x00000003F := by decide

/-- X111. -/
theorem test_cor7_lower_cause_wins : answer (ports 0x490080#24) = some 0x500000000 := by decide

/-- X3. -/
theorem test_ext7_order_of_indices : answer (ports 0x500074#24) = some 0x00000000F := by decide

/-- X109. -/
theorem test_ext7_wide_operand : answer (ports 0x5000FF#24) = some 0x500000000 := by decide

/-- X70. -/
theorem test_inj7_second_draw_not_read : answer (ports 0x600066#24 0x0#64 0x3C#6) = some 0x001051076 := by decide

/-- X69. -/
theorem test_inj7_draw_out_of_range : answer (ports 0x600066#24 0x0#64 0x07#6) = some 0xD00000000 := by decide

/-- X87. -/
theorem test_flip7_rejected_at_the_cap : answer (ports 0x736667#24) = some 0x001000167 := by decide

/-- X92. -/
theorem test_flip7_lower_cause_wins : answer (ports 0x79E666#24) = some 0x500000000 := by decide

/-- X102. -/
theorem test_illegal8_any_fields : answer (ports 0x8FFFFF#24) = some 0x300000000 := by decide

/-- S14. -/
theorem test_enc8_overall_parity : answer (ports 0x90000F#24) = some 0x0000000FF := by decide

/-- X104. -/
theorem test_enc8_wide_operand : answer (ports 0x900080#24) = some 0x500000000 := by decide

/-- X35. -/
theorem test_syn8_last_column : answer (ports 0xA00080#24) = some 0x00000000F := by decide

/-- S18. -/
theorem test_syn8_double_error : answer (ports 0xA000DB#24) = some 0x000000007 := by decide

/-- S27. -/
theorem test_cls8_single_at_parity_bit : answer (ports 0xB00008#24) = some 0x050000000 := by decide

/-- S19. -/
theorem test_cls8_double : answer (ports 0xB00007#24) = some 0x020000000 := by decide

/-- X38. -/
theorem test_cor8_position_zero : answer (ports 0xC000CC#24) = some 0x0000000CD := by decide

/-- S32. -/
theorem test_cor8_minus_eight : answer (ports 0xC800DB#24) = some 0x0000000DB := by decide

/-- X7. -/
theorem test_ext8_worked_example : answer (ports 0xD000DB#24) = some 0x00000000D := by decide

/-- X5. -/
theorem test_ext8_parity_dropped : answer (ports 0xD00017#24) = some 0x000000000 := by decide

/-- X79. -/
theorem test_inj8_second_position_below : answer (ports 0xE200CC#24 0x0#64 0x13#6) = some 0x002230CC0 := by decide

/-- X83. -/
theorem test_inj8_count_before_draw : answer (ports 0xEF00CC#24 0x0#64 0x38#6) = some 0x900000000 := by decide

/-- S16. -/
theorem test_flip8_second_error : answer (ports 0xF5FFFB#24) = some 0x0820024DB := by decide

/-- X99. -/
theorem test_flip8_index_above : answer (ports 0xF8CCCC#24) = some 0xB00000000 := by decide

/-- The reset state evaluates to the `DIM` fault of R29. -/
theorem test_reset_step : answer State.reset = some 0x700000000 := by decide

/-- `DEC7` of the word of section 2.1 of `spec/95_test_vectors.md`. -/
theorem test_dec7 : (responses (dec7 0x76#8)).map (List.map fun r => r.packed.toNat) =
    some [0x000000005, 0x000050000, 0x000000066, 0x00000000D] := by decide

/-- `DEC8` of the double-error word of section 2.3: the host passes -1. -/
theorem test_dec8 : (responses (dec8 0xDB#8)).map (List.map fun r => r.packed.toNat) =
    some [0x000000007, 0x020000000, 0x0000000DB, 0x00000000D] := by decide

/-- A run ends at the first fault, and a label that is no earlier transaction is no host program. -/
theorem test_run_faults : endsAt (dec7 0x80#8) = some .operandWidth ∧
    endsAt [{ op := 0x5#4, a := .field 0 .y }] = none ∧ responses [{ op := 0x5#4, a := .field 0 .y }] = none := by decide

/-- Program P1: encode, inject, then the decode chain on `n.y`. -/
theorem test_program_P1 :
    (responses ([{ op := 0x1#4, a := .value 0x0D }, { op := 0x6#4, a := .field 0 .y, rnd := .value 4 }] ++
      dec7At 2 (.field 1 .y))).map (List.map fun r => r.packed.toNat) =
    some [0x000000066, 0x001051076, 0x000000005, 0x000050000, 0x000000066, 0x00000000D] := by decide

/-- Program P3: encode, two flips, then the decode chain on `n.y`. -/
theorem test_program_P3 :
    (responses ([{ op := 0x9#4, a := .value 0x0F }, { op := 0xE#4, idx := .value 2, a := .field 0 .y, rnd := .value 0x22 }] ++
      dec8At 2 (.field 1 .y))).map (List.map fun r => r.packed.toNat) =
    some [0x0000000FF, 0x0025224DB, 0x000000007, 0x020000000, 0x0000000DB, 0x00000000D] := by decide

/-- X53 with the rows of the matrix taken from the syndromes of two earlier transactions (X23 and the column of H at
position 6). -/
theorem test_run_matrix_from_responses : (responses
    [{ op := 0x2#4, a := .value 0x03 }, { op := 0x2#4, a := .value 0x20 },
     { op := 0x0#4, b := .value 0x32, a := .value 0x05, mat := .rows [.field 0 .y, .field 1 .y] }]).map
      (List.map fun r => r.packed.toNat) = some [0x000000003, 0x000000006, 0x000000003] := by decide

/-- S17 with the draws taken from the positions of two earlier transactions (X10, X12). -/
theorem test_run_draws_from_responses : (responses
    [{ op := 0x3#4, a := .value 0x02 }, { op := 0x3#4, a := .value 0x04 },
     { op := 0xE#4, idx := .value 2, a := .value 0xFF, rnd := .draws (.field 0 .pos) (.field 1 .pos) }]).map
      (List.map fun r => r.packed.toNat) = some [0x000020000, 0x000040000, 0x0025224DB] := by decide

/-! ### Witnesses: what meets the hypotheses of each obligation -/

theorem witness_UnassignedOpFaults : opField 0x7FFFFF#24 ≠ 0x8#4 ∧ opField 0x900000#24 ≠ 0x8#4 ∧
    (Instr.enc8 0xFF#8 ≠ .illegal8) ∧ after (.enc8 0xFF#8) (ports 0#24) = some { fault := true, cause := 2#3 } := by decide

theorem witness_UnreadFieldsAreIgnored_syn7 :
    let s := ports 0x2A5576#24 0xFFFFFFFFFFFFFFFF#64 0x3F#6
    let t := ports 0x200076#24
    (s.cmd ^^^ t.cmd) &&& readMask (opField s.cmd) = 0#24 ∧ (opField s.cmd = 0x0#4 → s.mat = t.mat) ∧
      (s.rnd ^^^ t.rnd) &&& rndReadMask s.cmd = 0#6 ∧ answer s = answer t := by decide

/-- X73 and X74: with count 1 the second draw is not read. -/
theorem witness_UnreadFieldsAreIgnored_inj8 :
    let s := ports 0xE100FF#24 0#64 0x07#6
    let t := ports 0xE1A5FF#24 1#64 0x3F#6
    (s.cmd ^^^ t.cmd) &&& readMask (opField s.cmd) = 0#24 ∧ (opField s.cmd = 0x0#4 → s.mat = t.mat) ∧
      (s.rnd ^^^ t.rnd) &&& rndReadMask s.cmd = 0#6 ∧ answer s = some 0x00107807F := by decide

theorem witness_UnreadFieldsAreIgnored_gfmul :
    let s := ports 0x00470D#24 0x000804020E010D0B#64
    let t := ports 0x0F470D#24 0x000804020E010D0B#64 0x3F#6
    (s.cmd ^^^ t.cmd) &&& readMask (opField s.cmd) = 0#24 ∧ (opField s.cmd = 0x0#4 → s.mat = t.mat) ∧
      (s.rnd ^^^ t.rnd) &&& rndReadMask s.cmd = 0#6 ∧ answer t = some 0x000000066 := by decide

theorem witness_StepRunsTheDecodedCommand : (ports 0x470066#24).cmd = encode (.cor7 7#4 0x66#8) ∧
    2 ^ 24 - 1 < 2 ^ 24 ∧ (State.reset.withFetchWord 24 (2 ^ 24 - 1)).cmd = 0xFFFFFF#24 := by decide

theorem witness_AllZeroInputsAndReset : (ports 0#24).cmd = 0#24 ∧ (ports 0#24).mat = 0#64 ∧ (ports 0#24).rnd = 0#6 ∧
    (ports 0#24).rsp ≠ State.reset.rsp := by decide

theorem witness_StepKeepsResponsesLegal : (ports 0xB00007#24).rsp.Legal ∧ answer (ports 0xB00007#24) = some 0x020000000 ∧
    ¬ Response.Legal { cause := 1#3 } := by decide

theorem witness_OnlyDrivenFieldsAreSet :
    after (.inj8 1#4 0xFF#8) (ports 0#24 0#64 0x3F#6) = some { y := 0x7F#8, pos := 7#4, mask := 0x80#8, cnt := 1#4 } ∧
    after (.inj8 2#4 0xCC#8) (ports 0#24 0#64 0x37#6) =
      some { y := 0x0C#8, pos := 7#4, pos2 := 6#4, mask := 0xC0#8, cnt := 2#4 } := by decide

theorem witness_FaultDrivesCauseAndNothingElse :
    after (.cor7 8#4 0x66#8) (ports 0#24) = some { fault := true, cause := 5#3 } := by decide

theorem witness_LowestApplicableCauseIsReported_none : violations 0#64 0x06#6 (.inj7 0x66#8) = [] := by decide

/-- X113 and X83: two causes apply. -/
theorem witness_LowestApplicableCauseIsReported_two :
    violations 0#64 0#6 (.flip7 12#4 0x00#8 0x80#8) = [.operandWidth, .position] ∧
    after (.flip7 12#4 0x00#8 0x80#8) (ports 0#24) = some { fault := true, cause := 2#3 } := by decide

theorem witness_LowestApplicableCauseIsReported_gfmul :
    violations 0x000804020E010D0B#64 0#6 (.gfmul 7#4 4#4 0x0D#8) = [] ∧
    violations 0x000804020E010D0B#64 0#6 (.gfmul 6#4 4#4 0x0D#8) = [.dim] := by decide

theorem witness_OverlongVectorsFault : 2 ^ 4 ≤ (0x10#8).toNat ∧ 2 ^ 3 ≤ (0x08#8).toNat ∧ 2 ^ 7 ≤ (0x80#8).toNat ∧
    2 ^ (4#4).toNat ≤ (0x10#8).toNat ∧ 2 ^ (0#4).toNat ≤ (0x01#8).toNat := by decide

theorem witness_DoubleAndRejectedFlipAreNoFaults :
    ((0x07#8).toNat < 16 ∧ (0x07#8).getLsbD 3 = false ∧ 0x07#8 ≠ 0#8) ∧
    ((0x67#8).toNat < 2 ^ 7 ∧ (0x66#8).toNat < 2 ^ 7 ∧ (6#4).toNat ≤ 6 ∧
      (0x67#8 ^^^ 0x66#8).getLsbD (6#4).toNat = false ∧ 1 ≤ popcount (0x67#8 ^^^ 0x66#8)) ∧
    ((3#4).toNat ≤ 7 ∧ (0x4D#8 ^^^ 0xCC#8).getLsbD (3#4).toNat = false ∧ 2 ≤ popcount (0x4D#8 ^^^ 0xCC#8)) := by decide

theorem witness_WellFormedMeansFaultOnlyOnPorts : (Instr.cor7 8#4 0x66#8).wellFormed = false ∧
    (Instr.inj7 0x66#8).wellFormed = true ∧ (after (.inj7 0x66#8) (ports 0#24)).map Response.fault = some false := by decide

theorem witness_MultiplyIsLinear : (8 ≤ 8 ∧ 7 < 8) ∧ (0x0F#8).toNat < 16 ∧
    (multiply 8 8 0x8000000000000000#64 (1#8 <<< 7)).getLsbD 7 = true := by decide

/-- X50 and X45: the largest and the smallest dimensions complete. -/
theorem witness_GfmulResult_completes :
    (∀ i, (8#4).toNat ≤ i → i < 8 → (0xA5#8).getLsbD i = false) ∧
    (∀ i, i < 8 → (1#4).toNat ≤ i → (0x01#8).getLsbD i = false) ∧
    (∀ r, r < 8 → ∀ c, c < 8 → (1#4).toNat ≤ r ∨ (1#4).toNat ≤ c → (1#64).getLsbD (8 * r + c) = false) ∧
    after (.gfmul 8#4 8#4 0xA5#8) (ports 0#24 0x8040201008040201#64) = some { y := 0xA5#8 } ∧
    after (.gfmul 1#4 1#4 0x01#8) (ports 0#24 1#64) = some { y := 0x01#8 } :=
  ⟨fun i h h' => absurd h (Nat.not_le.mpr h'), by decide, by decide, by decide, by decide⟩

/-- X54 to X61: each disjunct of the `DIM` clause. -/
theorem witness_GfmulResult_faults :
    (0#4).toNat < 1 ∧ 8 < (9#4).toNat ∧ ((4#4).toNat ≤ 4 ∧ 4 < 8 ∧ (0x1D#8).getLsbD 4 = true) ∧
    ((6#4).toNat ≤ 6 ∧ (0x000804020E010D0B#64).getLsbD (8 * 6 + 3) = true) ∧
    ((3#4).toNat ≤ 3 ∧ (0x000804020E010D0B#64).getLsbD (8 * 0 + 3) = true) ∧
    after (.gfmul 7#4 3#4 0x0D#8) (ports 0#24 0x000804020E010D0B#64) = some { fault := true, cause := 3#3 } := by decide

theorem witness_CodecsAreGfmulInstances :
    ((0x0F#8).toNat < 2 ^ 4 ∧
      after (.gfmul 7#4 4#4 0x0F#8) (ports 0#24 0x000804020E010D0B#64) = some { y := 0x7F#8 }) ∧
    ((0x76#8).toNat < 2 ^ 7 ∧
      after (.gfmul 3#4 7#4 0x76#8) (ports 0#24 0x0000000000786655#64) = some { y := 0x05#8 }) ∧
    after (.gfmul 4#4 8#4 0xDB#8) (ports 0#24 0x00000000FFF0CCAA#64) = some { y := 0x07#8 } := by decide

theorem witness_Enc7Result : (0x0F#8).toNat < 2 ^ 4 ∧ 2 ^ 4 ≤ (0x10#8).toNat ∧
    after (.enc7 0x0F#8) (ports 0x10000D#24) = some { y := 0x7F#8 } := by decide

theorem witness_Syn7Result : (0x7F#8).toNat < 2 ^ 7 ∧ 2 ^ 7 ≤ (0x80#8).toNat ∧
    after (.syn7 0x7F#8) (ports 0x200076#24) = some {} := by decide

theorem witness_Epos7Result : (0x07#8).toNat < 2 ^ 3 ∧ 2 ^ 3 ≤ (0x08#8).toNat ∧
    (7#4).toNat = ((0x07#8).getLsbD 0).toNat * 1 + ((0x07#8).getLsbD 1).toNat * 2 + ((0x07#8).getLsbD 2).toNat * 4 ∧
    after (.epos7 0x07#8) (ports 0x300005#24) = some { pos := 7#4 } := by decide

/-- X26, X28, X30: the lowest and the highest position, and the first above. -/
theorem witness_Cor7Result : ((0x7F#8).toNat < 2 ^ 7 ∧ 1 ≤ (1#4).toNat ∧ (7#4).toNat ≤ 7 ∧ 7 < (8#4).toNat) ∧
    2 ^ 7 ≤ (0x80#8).toNat ∧ after (.cor7 1#4 0x00#8) (ports 0#24) = some { y := 0x01#8 } ∧
    after (.cor7 7#4 0x7F#8) (ports 0#24) = some { y := 0x3F#8 } ∧
    after (.cor7 8#4 0x66#8) (ports 0#24) = some { fault := true, cause := 5#3 } := by decide

theorem witness_Ext7Result : (0x7F#8).toNat < 2 ^ 7 ∧ 2 ^ 7 ≤ (0x80#8).toNat ∧
    after (.ext7 0x7F#8) (ports 0x500066#24) = some { y := 0x0F#8 } := by decide

theorem witness_StandardRoundTrip : (0x0F#8).toNat < 16 ∧ after (.enc7 0x0F#8) (ports 0#24) = some { y := 0x7F#8 } ∧
    after (.ext7 0x7F#8) (ports 0#24) = some { y := 0x0F#8 } := by decide

theorem witness_StandardCorrectsSingleErrors : (0x0F#8).toNat < 16 ∧ 6 < 7 ∧
    after (.cor7 (BitVec.ofNat 4 (6 + 1)) (0x7F#8 ^^^ 1#8 <<< 6)) (ports 0#24) = some { y := 0x7F#8 } := by decide

theorem witness_StandardMiscorrectsDoubleErrors :
    ((0x0F#8).toNat < 16 ∧ 1 ≤ 1 ∧ 7 ≤ 7 ∧ (1 : Nat) ≠ 7) ∧
    (after (.syn7 0x55#8) (ports 0#24) = some { y := 0#8 } ∧ after (.enc7 0x0B#8) (ports 0#24) = some { y := 0x55#8 }) ∧
    (0x0F#8 ≠ 0x0B#8 ∧ after (.enc7 0x0F#8) (ports 0#24) = some { y := 0x7F#8 }) := by decide

theorem witness_Enc8Result : (0x0F#8).toNat < 2 ^ 4 ∧ 2 ^ 4 ≤ (0x10#8).toNat ∧
    after (.enc8 0x06#8) (ports 0x90000F#24) = some { y := 0x66#8 } := by decide

theorem witness_ExtendedCodewordWeight : (0x0F#8).toNat < 16 ∧ after (.enc8 0x0F#8) (ports 0#24) = some { y := 0xFF#8 } ∧
    popcount 0xFF#8 = 8 := by decide

theorem witness_Syn8Result : after (.syn8 0x07#8) (ports 0xA000DB#24) = some { y := 0x0B#8 } := by decide

/-- The four rows of the decision table, and the first vector too wide. -/
theorem witness_Cls8Result : (0x0F#8).toNat < 2 ^ 4 ∧ 2 ^ 4 ≤ (0x10#8).toNat ∧
    ((0x00#8).getLsbD 3 = false ∧ (0x00#8).toNat % 8 = 0) ∧ ((0x08#8).getLsbD 3 = true ∧ (0x08#8).toNat % 8 = 0) ∧
    ((0x0F#8).getLsbD 3 = true ∧ (0x0F#8).toNat % 8 ≠ 0) ∧ ((0x07#8).getLsbD 3 = false ∧ (0x07#8).toNat % 8 ≠ 0) ∧
    after (.cls8 0x08#8) (ports 0xB00007#24) = some { etype := 1#2, cc := true } := by decide

/-- -8, -1, 0 and 7. -/
theorem witness_Cor8Result : (8#4).toInt < 0 ∧ (15#4).toInt < 0 ∧ 0 ≤ (0#4).toInt ∧ 0 ≤ (7#4).toInt ∧
    after (.cor8 8#4 0xDB#8) (ports 0xC500DF#24) = some { y := 0xDB#8 } ∧
    after (.cor8 7#4 0xCC#8) (ports 0xCF00DB#24) = some { y := 0x4C#8 } := by decide

theorem witness_Ext8Result : after (.ext8 0xE8#8) (ports 0xD000CC#24) = some { y := 0x0F#8 } := by decide

theorem witness_ExtendedRoundTrip : (0x0F#8).toNat < 16 ∧ after (.enc8 0x0F#8) (ports 0#24) = some { y := 0xFF#8 } ∧
    after (.syn8 0xFF#8) (ports 0#24) = some {} := by decide

theorem witness_ExtendedCorrectsOneDetectsTwo : (0x06#8).toNat < 16 ∧ 0 < 8 ∧ 7 < 8 ∧ (0 : Nat) ≠ 7 ∧
    after (.syn8 (0x66#8 ^^^ 1#8 <<< 0)) (ports 0#24) = some { y := 0x08#8 } := by decide

/-- X36 and X37: four flips that read as clean, three that read as single at 3; and an even number with XOR not 0. -/
theorem witness_ExtendedBeyondTwoFlips : (0x00#8).toNat < 16 ∧
    (3 ≤ popcount 0x07#8 ∧ popcount 0x07#8 % 2 = 1 ∧ xorOfPositions 0x07#8 = 3) ∧
    (3 ≤ popcount 0x0F#8 ∧ popcount 0x0F#8 % 2 = 0 ∧ xorOfPositions 0x0F#8 = 0) ∧
    (3 ≤ popcount 0x17#8 ∧ popcount 0x17#8 % 2 = 0 ∧ xorOfPositions 0x17#8 ≠ 0) := by decide

/-- X38: position 0 passed after a report that is not `single` flips the overall-parity bit; -1 is the identity. -/
theorem witness_Cor8OnlyWhenSingle : after (.syn8 0xCC#8) (ports 0#24) = some { y := 0#8 } ∧
    after (.cls8 0#8) (ports 0#24) = some { etype := 0#2, cc := true } ∧
    after (.cor8 0#4 0xCC#8) (ports 0#24) = some { y := 0xCD#8 } ∧ KeepsR184 { cc := true } 15#4 ∧
    ¬ KeepsR184 { cc := true } 0#4 := by decide

theorem witness_ExtendedDecodingUnderR184 : (0x0F#8).toNat < 16 ∧ popcount 0x00#8 ≤ 1 ∧ popcount 0x80#8 ≤ 1 ∧
    popcount 0x24#8 = 2 ∧ KeepsR184 { etype := 1#2, pos := 7#4, cc := true } 7#4 ∧
    KeepsR184 { etype := 2#2 } 8#4 := by decide

/-- X68, X69: the draws 6 and 7. -/
theorem witness_Inj7Result : ((0x66#8).toNat < 2 ^ 7 ∧ (0x06#6).toNat % 8 ≤ 6 ∧ (0x07#6).toNat % 8 = 7) ∧
    2 ^ 7 ≤ (0x80#8).toNat ∧
    after (.inj7 0x66#8) (ports 0x600066#24 0#64 0x06#6) = some { y := 0x26#8, pos := 7#4, mask := 0x40#8, cnt := 1#4 } ∧
    after (.inj7 0x66#8) (ports 0x600066#24 0#64 0x07#6) = some { fault := true, cause := 6#3 } := by decide

/-- X76, X77, X78, X80, X81, X82: the draws 0, 6, 7 and the counts 0 and 3. -/
theorem witness_Inj8Result :
    (7 = (0x07#6).toNat % 8 ∧ (0x07#6).toNat / 8 ≤ 6 ∧ 0 = (if (0x07#6).toNat / 8 < 7 then (0x07#6).toNat / 8 else 8)) ∧
    (7 = (0x37#6).toNat % 8 ∧ (0x37#6).toNat / 8 ≤ 6) ∧ (0x38#6).toNat / 8 = 7 ∧ (0#4 ≠ 1#4 ∧ 0#4 ≠ 2#4) ∧
    (3#4 ≠ 1#4 ∧ 3#4 ≠ 2#4) ∧
    after (.inj8 2#4 0xCC#8) (ports 0#24 0#64 0x07#6) =
      some { y := 0x4D#8, pos := 7#4, pos2 := 0#4, mask := 0x81#8, cnt := 2#4 } ∧
    after (.inj8 2#4 0xCC#8) (ports 0#24 0#64 0x1B#6) =
      some { y := 0xD4#8, pos := 3#4, pos2 := 4#4, mask := 0x18#8, cnt := 2#4 } := by decide

theorem witness_Inj8DrawsAreOrderedPairs : (0x37#6).toNat / 8 ≤ 6 ∧ (7#4).toNat ≤ 7 ∧ (0#4).toNat ≤ 7 ∧ 7#4 ≠ 0#4 ∧
    (after (.inj8 2#4 0xCC#8) (ports 0#24 0#64 0x07#6)).map (fun r => (r.pos, r.pos2)) = some (7#4, 0#4) := by decide

/-- X85, X90, X91, X92, X94, X99: the indices 6, 7 and 8, and each vector too wide. -/
theorem witness_FlipResults :
    ((0x66#8).toNat < 2 ^ 7 ∧ (6#4).toNat ≤ 6 ∧ 6 < (7#4).toNat ∧ (7#4).toNat ≤ 7 ∧ 7 < (8#4).toNat) ∧
    (2 ^ 7 ≤ (0xE6#8).toNat ∨ 2 ^ 7 ≤ (0x66#8).toNat) ∧ (2 ^ 7 ≤ (0x66#8).toNat ∨ 2 ^ 7 ≤ (0xE6#8).toNat) ∧
    after (.flip7 6#4 0x66#8 0x66#8) (ports 0x746666#24) =
      some { y := 0x26#8, mask := 0x40#8, cnt := 1#4, acc := true } ∧
    after (.flip8 7#4 0xCC#8 0xCD#8) (ports 0xF5FFFB#24) =
      some { y := 0x4D#8, mask := 0x81#8, cnt := 2#4, acc := true } := by decide

/-- X86, X96: at the cap, a request on an erroneous bit. -/
theorem witness_ManualFlipsStayUnderTheCap :
    ((0x67#8).toNat < 2 ^ 7 ∧ (0x66#8).toNat < 2 ^ 7 ∧ (0#4).toNat ≤ 6 ∧ popcount (0x67#8 ^^^ 0x66#8) ≤ 1 ∧
      after (.flip7 0#4 0x66#8 0x67#8) (ports 0#24) = some { y := 0x66#8, acc := true }) ∧
    (7#4).toNat ≤ 7 ∧ popcount (0x4D#8 ^^^ 0xCC#8) ≤ 2 ∧
    after (.flip8 7#4 0xCC#8 0x4D#8) (ports 0#24) = some { y := 0xCD#8, mask := 0x01#8, cnt := 1#4, acc := true } := by decide

theorem witness_RunsEndAtTheFirstFault : endsAt (dec7 0x80#8) = some .operandWidth ∧
    endsAt (dec7 0x80#8 ++ dec8 0xDB#8) = some .operandWidth ∧ (responses (dec8 0xDB#8)).map List.length = some 4 := by
  decide

theorem witness_Dec7RecoversTheData : (0x0F#8).toNat < 16 ∧ 6 < 7 ∧
    (responses (dec7 (0x7F#8 ^^^ 1#8 <<< 6))).map (List.map Response.y) = some [0x07#8, 0#8, 0x7F#8, 0x0F#8] := by decide

theorem witness_Dec7RecoversTheData_noFlip :
    (responses (dec7 0x7F#8)).map (List.map Response.y) = some [0#8, 0#8, 0x7F#8, 0x0F#8] := by decide

theorem witness_Dec8RecoversOrDetects : (0x0F#8).toNat < 16 ∧ popcount 0x00#8 ≤ 1 ∧ popcount 0x80#8 ≤ 1 ∧
    0x80#8 = 1#8 <<< 7 ∧ popcount 0x24#8 = 2 ∧
    (responses (dec8 (0xFF#8 ^^^ 0x80#8))).map (List.map Response.pos) = some [0#4, 7#4, 0#4, 0#4] := by decide

/-- Two rows, two draws at 0 and 7, and a transaction whose operands resolve. -/
theorem witness_OperandsComeFromEarlierResponses :
    let e : List Response := [{ y := 0x03#8, pos := 7#4 }, { y := 0x06#8 }]
    [1, 0].length ≤ 8 ∧ [1, 0].map (fun l => e[l]?) = [{ y := 0x06#8 }, { y := 0x03#8, pos := 7#4 }].map some ∧
    (HostOperand.rows [.field 1 .y, .field 0 .y]).wires? e 64 = some 0x0306#64 ∧
    (HostOperand.draws (.field 0 .pos) (.field 1 .pos)).wires? e 6 = some 0x07#6 ∧
    ({ op := 0x1#4, a := .field 0 .y } : HostStep).inputs? e = some (0x100003#24, 0#64, 0#6) ∧
    (after (.enc7 0x03#8) (ports 0#24)).map Response.fault = some false := by decide

/-- After one other response whose `y` is the word of section 2.1 of `spec/95_test_vectors.md`; a word that faults; a word of
section 2.3. -/
theorem witness_DecodeMacrosFollowOtherTransactions :
    let e : List Response := [{ y := 0x76#8 }]
    (HostSource.field 0 .y).value? e = some (0x76#8).toNat ∧ (HostSource.value 0x80).value? e = some (0x80#8).toNat ∧
    (responses (dec7 0x76#8)).map List.length = some 4 ∧ endsAt (dec7 0x80#8) = some .operandWidth ∧
    (responses (dec8 0xDB#8)).map List.length = some 4 := by decide

end Sys2Proof.Tests
end

section
/-! The ports with all inputs zero and at reset (`spec/10_state.md` R29): the lemmas behind both statements, then the
statements. -/

namespace Sys2Proof.Machine

/-! ### A faulted response is legal -/

/-- A faulting transaction names one of the six causes of R160 and drives nothing else, so the range clauses of
`Response.Legal` speak of fields that are 0. -/
theorem Response.legal_faulted (c : Cause) : (Response.faulted c).Legal := by
  cases c <;> decide

/-! ### The all-zero command -/

theorem step_eq_exec_decode (s : State) : step s = exec (decode s.cmd) s := rfl

/-- The all-zero command word is a `GFMUL` with both dimensions 0 (R63, R65). -/
theorem decode_zero : decode 0#24 = .gfmul 0#4 0#4 0#8 := by decide

@[simp] theorem badDim_zero : badDim 0 = true := rfl

/-- The first `DIM` case of R91: whatever the columns, the vector and the matrix are. -/
theorem gfmulMismatch_of_badDim_rows {rows : Nat} (h : badDim rows = true) (cols : Nat) (a : Byte) (m : MatWord) :
    gfmulMismatch rows cols a m = true := by
  simp [gfmulMismatch, h]

theorem exec_gfmul_of_mismatch {rows cols : Nibble} {a : Byte} {s : State}
    (h : gfmulMismatch (uint rows) (uint cols) a s.mat = true) :
    exec (.gfmul rows cols a) s = .next (s.drive (Response.faulted .dim)) :=
  (execGfmul_eq rows cols a s).trans (by rw [if_pos h])

/-- The command alone decides: its zero row count faults before `mat` matters, and `GFMUL` does not read `rnd`. -/
theorem step_of_cmd_eq_zero {s : State} (h : s.cmd = 0#24) : step s = .next (s.drive (Response.faulted .dim)) := by
  rw [step_eq_exec_decode, h, decode_zero]
  exact exec_gfmul_of_mismatch (gfmulMismatch_of_badDim_rows badDim_zero ..)

/-! ### The statements -/

/-- Settles O9: the all-zero command faults `DIM` in every state, and the response on the port at reset is that fault
already. -/
theorem allZeroInputsAndReset : Obligations.AllZeroInputsAndReset :=
  ⟨fun _ hcmd _ _ => step_of_cmd_eq_zero hcmd, step_of_cmd_eq_zero (s := State.reset) rfl⟩

/-- Settles O14: the response at reset is a faulted one (`reset_rsp`), and those are legal whatever their cause. -/
theorem resetResponseIsLegal : Obligations.ResetResponseIsLegal := by
  unfold Obligations.ResetResponseIsLegal
  rw [reset_rsp]
  exact Response.legal_faulted .dim

end Sys2Proof.Machine
end

section
/-! The shared memory model (`spec/20_memory.md`): a transaction is answered from its own inputs alone, so that neither an
earlier transaction nor a repetition shows; and a vector longer than its operand is never read. The lemmas first, then the
statements. -/

namespace Sys2Proof

/-! ### Decoding an encoded instruction -/

/-- `encode` is built by `command`, whose fields come back (`opField_command` and its siblings), and the operation code of each
constructor is the one that `decode` maps to it (R63). -/
@[simp] theorem decode_encode (i : Instr) : decode (encode i) = i := by
  cases i <;> simp [encode, decode]

end Sys2Proof

namespace Sys2Proof.Machine

/-! ### The answer of a transaction -/

/-- One response answers an instruction in every state with the same `mat` and `rnd` (R20, R46): `GFMUL` reads `mat`, the
random injectors read `rnd`, and the others read no port beyond the command. -/
theorem exec_answers (i : Instr) (mat : MatWord) (rnd : RndWord) :
    ∃ r, ∀ s : State, s.mat = mat → s.rnd = rnd → exec i s = .next (s.drive r) := by
  cases i with
  | gfmul rows cols a => exact ⟨_, fun s hmat _ => hmat ▸ execGfmul_eq rows cols a s⟩
  | enc7 a => exact ⟨_, fun s _ _ => execEnc7_eq a s⟩
  | syn7 a => exact ⟨_, fun s _ _ => execSyn7_eq a s⟩
  | epos7 a => exact ⟨_, fun s _ _ => execEpos7_eq a s⟩
  | cor7 idx a => exact ⟨_, fun s _ _ => execCor7_eq idx a s⟩
  | ext7 a => exact ⟨_, fun s _ _ => execExt7_eq a s⟩
  | inj7 a => exact ⟨_, fun s _ hrnd => hrnd ▸ execInj7_eq a s⟩
  | flip7 idx b a => exact ⟨_, fun s _ _ => execFlip7_eq idx b a s⟩
  | illegal8 => exact ⟨_, fun s _ _ => execIllegal8_eq s⟩
  | enc8 a => exact ⟨_, fun s _ _ => execEnc8_eq a s⟩
  | syn8 a => exact ⟨_, fun s _ _ => execSyn8_eq a s⟩
  | cls8 a => exact ⟨_, fun s _ _ => execCls8_eq a s⟩
  | cor8 idx a => exact ⟨_, fun s _ _ => execCor8_eq idx a s⟩
  | ext8 a => exact ⟨_, fun s _ _ => execExt8_eq a s⟩
  | inj8 idx a => exact ⟨_, fun s _ hrnd => hrnd ▸ execInj8_eq idx a s⟩
  | flip8 idx b a => exact ⟨_, fun s _ _ => execFlip8_eq idx b a s⟩

/-- One response answers the inputs in every state that has them on its ports. -/
theorem step_answers (cmd : CmdWord) (mat : MatWord) (rnd : RndWord) :
    ∃ r, ∀ s : State, s.cmd = cmd → s.mat = mat → s.rnd = rnd → step s = .next (s.drive r) := by
  obtain ⟨r, hr⟩ := exec_answers (decode cmd) mat rnd
  refine ⟨r, fun s hcmd hmat hrnd => ?_⟩
  rw [step_eq_exec_decode, hcmd]
  exact hr s hmat hrnd

/-- Presenting a transaction replaces all inputs, and the answer replaces the response: nothing of the old state is left. -/
theorem step_present (cmd : CmdWord) (mat : MatWord) (rnd : RndWord) :
    ∃ t, ∀ s : State, step (s.present cmd mat rnd) = .next t := by
  obtain ⟨r, hr⟩ := step_answers cmd mat rnd
  exact ⟨{ cmd, mat, rnd, rsp := r }, fun s => hr (s.present cmd mat rnd) rfl rfl rfl⟩

theorem transact_eq_of_any_ports (cmd : CmdWord) (mat : MatWord) (rnd : RndWord) (s t : State) :
    transact cmd mat rnd s = transact cmd mat rnd t := by
  obtain ⟨u, hu⟩ := step_present cmd mat rnd
  rw [transact, transact, hu s, hu t]

/-! ### Vectors longer than their operand -/

theorem tooWide_of_le {len : Nat} {v : Byte} (h : 2 ^ len ≤ v.toNat) : tooWide len v = true := by
  rw [tooWide_eq]
  exact decide_eq_true h

/-- The vector case of `DIM` (R91), whatever the dimensions and the matrix are. -/
theorem gfmulMismatch_of_tooWide {cols : Nat} {a : Byte} (h : tooWide cols a = true) (rows : Nat) (m : MatWord) :
    gfmulMismatch rows cols a m = true := by
  simp [gfmulMismatch, h]

/-- A meaning whose first check is on a length faults when a vector is too long, whatever it would answer otherwise. -/
theorem operandWidth_of_check {o : Host.Outcome State Fault Refusal} {p : Prop} [Decidable p] {s : State} {r : Response}
    (ho : o = .next (s.drive (if p then Response.faulted .operandWidth else r))) (hp : p) :
    o = .next { s with rsp := { fault := true, cause := 2#3 } } := by
  rw [ho, if_pos hp]
  rfl

/-! ### The statements -/

/-- Settles O11: one response answers the inputs, so the state after them is those inputs with that response. -/
theorem transactionsAreIndependent : Obligations.TransactionsAreIndependent :=
  step_present

/-- Settles O19: the width check stands first in the meaning of every operation with a vector shorter than its field; for
`GFMUL` it is one of the `DIM` cases. -/
theorem overlongVectorsFault : Obligations.OverlongVectorsFault := by
  refine ⟨fun a s h => ?_, fun a s h => ?_, fun idx a b s h => ?_, fun rows cols a s h => ?_⟩
  · exact ⟨operandWidth_of_check (execEnc7_eq a s) (tooWide_of_le h),
      operandWidth_of_check (execEnc8_eq a s) (tooWide_of_le h),
      operandWidth_of_check (execCls8_eq a s) (tooWide_of_le h)⟩
  · exact operandWidth_of_check (execEpos7_eq a s) (tooWide_of_le h)
  · have hw : tooWide 7 a = true := tooWide_of_le h
    exact ⟨operandWidth_of_check (execSyn7_eq a s) hw,
      operandWidth_of_check (execCor7_eq idx a s) hw,
      operandWidth_of_check (execExt7_eq a s) hw,
      operandWidth_of_check (execInj7_eq a s) hw,
      operandWidth_of_check (execFlip7_eq idx b a s) (Bool.or_eq_true_iff.mpr (.inl hw)),
      operandWidth_of_check (execFlip7_eq idx a b s) (Bool.or_eq_true_iff.mpr (.inr hw))⟩
  · exact exec_gfmul_of_mismatch (gfmulMismatch_of_tooWide (tooWide_of_le h) ..)

/-- Settles O52: the first transaction answers alike from either state, and what follows it starts from its answer. -/
theorem runsDoNotDependOnThePorts : Obligations.RunsDoNotDependOnThePorts := by
  intro p e s t
  cases p with
  | nil => rfl
  | cons h rest =>
    cases hi : h.inputs? e with
    | none => rw [runHost_cons_refused rest s hi, runHost_cons_refused rest t hi]
    | some inputs =>
      obtain ⟨cmd, mat, rnd⟩ := inputs
      simp only [runHost, hi, transact_eq_of_any_ports cmd mat rnd s t]

/-- Settles O8: a step is `exec` of the decoded command by definition; the other clauses say what the command on the port
decodes to. -/
theorem stepRunsTheDecodedCommand : Obligations.StepRunsTheDecodedCommand := by
  refine ⟨step_eq_exec_decode, fun i s h => ?_, fun w s h => ?_⟩
  · rw [step_eq_exec_decode, h, decode_encode]
  · rw [State.withFetchWord, Nat.mod_eq_of_lt h, step_eq_exec_decode]

/-- Settles O12: the answer leaves the inputs as they are, and one response answers them. -/
theorem repeatedTransactionAnswersAlike : Obligations.RepeatedTransactionAnswersAlike := by
  intro s
  obtain ⟨r, hr⟩ := step_answers s.cmd s.mat s.rnd
  exact ⟨s.drive r, hr s rfl rfl rfl, hr (s.drive r) rfl rfl rfl⟩

end Sys2Proof.Machine
end

section
/-! The command format (`spec/30_encoding.md` R60 to R67): a word is its four fields, the rows of the operation map as the
cases of an operation code, what a word loses when it is decoded and encoded, and the statements about the encoding alone. -/

namespace Sys2Proof

/-! ### A word and its fields -/

theorem getLsbD_opField (w : CmdWord) (k : Nat) : (opField w).getLsbD k = (decide (k < 4) && w.getLsbD (20 + k)) :=
  BitVec.getLsbD_extractLsb' ..

theorem getLsbD_idxField (w : CmdWord) (k : Nat) : (idxField w).getLsbD k = (decide (k < 4) && w.getLsbD (16 + k)) :=
  BitVec.getLsbD_extractLsb' ..

theorem getLsbD_bField (w : CmdWord) (k : Nat) : (bField w).getLsbD k = (decide (k < 8) && w.getLsbD (8 + k)) :=
  BitVec.getLsbD_extractLsb' ..

theorem getLsbD_aField (w : CmdWord) (k : Nat) : (aField w).getLsbD k = (decide (k < 8) && w.getLsbD k) := by
  rw [aField, BitVec.getLsbD_extractLsb', Nat.zero_add]

/-- Each wire of a word is a wire of exactly one field. -/
theorem command_fields (w : CmdWord) : command (opField w) (idxField w) (bField w) (aField w) = w := by
  refine BitVec.eq_of_getLsbD_eq fun k hk => ?_
  rw [getLsbD_command, getLsbD_opField, getLsbD_idxField, getLsbD_bField, getLsbD_aField]
  split
  · simp [*]
  · split
    · simp [show k - 8 < 8 by omega, show 8 + (k - 8) = k by omega]
    · split
      · simp [show k - 16 < 4 by omega, show 16 + (k - 16) = k by omega]
      · simp [show k - 20 < 4 by omega, show 20 + (k - 20) = k by omega]

/-- The two dimensions of `GFMUL` are the two halves of `b` (R65). -/
@[simp] theorem colsField_append_rowsField (b : Byte) : colsField b ++ rowsField b = b := by
  refine BitVec.eq_of_getLsbD_eq fun k hk => ?_
  rw [getLsbD_nibbles, rowsField, colsField, BitVec.getLsbD_extractLsb', BitVec.getLsbD_extractLsb']
  split
  · simp [*]
  · simp [show k - 4 < 4 by omega, show 4 + (k - 4) = k by omega]

/-! ### The rows of the operation map -/

/-- The sixteen values of an operation code, each under the name of its row (R63). -/
theorem opcode_cases {motive : Nibble → Prop} (gfmul : motive 0x0#4) (enc7 : motive 0x1#4) (syn7 : motive 0x2#4)
    (epos7 : motive 0x3#4) (cor7 : motive 0x4#4) (ext7 : motive 0x5#4) (inj7 : motive 0x6#4) (flip7 : motive 0x7#4)
    (illegal8 : motive 0x8#4) (enc8 : motive 0x9#4) (syn8 : motive 0xA#4) (cls8 : motive 0xB#4) (cor8 : motive 0xC#4)
    (ext8 : motive 0xD#4) (inj8 : motive 0xE#4) (flip8 : motive 0xF#4) (op : Nibble) : motive op := by
  have h : op ∈ (List.finRange 16).map BitVec.ofFin := by revert op; decide
  fin_cases h <;> assumption

/-- Decoding goes to the row that the operation code names. -/
@[simp] theorem op_decode (w : CmdWord) : (decode w).op = opField w := by
  unfold decode
  generalize opField w = op
  cases op using opcode_cases <;> rfl

theorem decode_eq_illegal8_iff (w : CmdWord) : decode w = .illegal8 ↔ opField w = 0x8#4 := by
  constructor
  · intro h
    rw [← op_decode, h, Instr.op]
  · intro h
    simp [decode, h]

/-- In each row the function `op[2:0]` and the variant `op[3]` name the operation that the map names (R64). -/
theorem decode_eq_decodeByStructure (w : CmdWord) : decode w = decodeByStructure w := by
  unfold decode decodeByStructure
  generalize opField w = op
  cases op using opcode_cases <;> rfl

/-! ### Encoding a decoded word -/

/-- The operation code is read by every operation (R65). -/
theorem opField_readMask (op : Nibble) : opField (readMask op) = 0xF#4 := by
  revert op; decide

/-- Clearing the bits an operation does not read clears them field by field. -/
theorem command_and_readMask (op idx : Nibble) (b a : Byte) :
    command op idx b a &&& readMask op =
      command op (idx &&& idxField (readMask op)) (b &&& bField (readMask op)) (a &&& aField (readMask op)) := by
  have hop : op &&& 0xF#4 = op := BitVec.and_allOnes
  conv_lhs => rw [← command_fields (readMask op), command_and, opField_readMask, hop]

/-- A field is read whole or not at all, and the encoder writes the fields that are read. -/
theorem encode_decode_command (op idx : Nibble) (b a : Byte) :
    encode (decode (command op idx b a)) = command op idx b a &&& readMask op := by
  have hn (n : Nibble) : n &&& 0xF#4 = n := BitVec.and_allOnes
  have hv (v : Byte) : v &&& 0xFF#8 = v := BitVec.and_allOnes
  rw [command_and_readMask, decode, opField_command, idxField_command, bField_command, aField_command]
  cases op using opcode_cases <;> simp [encode, readMask, idxField, bField, aField, hn, hv]

theorem encode_decode (w : CmdWord) : encode (decode w) = w &&& readMask (opField w) := by
  have h := encode_decode_command (opField w) (idxField w) (bField w) (aField w)
  rwa [command_fields] at h

/-! ### The statements -/

/-- Settles O1: the fields of a command come back from it, and each constructor's code is the one that decodes to it. -/
theorem decodeInvertsEncode : Obligations.DecodeInvertsEncode :=
  decode_encode

/-- Settles O2: row by row, the fields that the encoder writes are the ones that the mask keeps. -/
theorem encodeKeepsReadFields : Obligations.EncodeKeepsReadFields :=
  encode_decode

/-- Settles O4: row by row. -/
theorem operationTableMatchesOpStructure : Obligations.OperationTableMatchesOpStructure :=
  decode_eq_decodeByStructure

/-- Settles O3: the fields are slices of the word, and the slices cover it. -/
theorem commandWordLayout : Obligations.CommandWordLayout :=
  ⟨fun w k => ⟨getLsbD_opField w k, getLsbD_idxField w k, getLsbD_bField w k, getLsbD_aField w k⟩, command_fields⟩

/-- Settles O5, by evaluating the decoder on the eleven words. -/
theorem specWordsDecode : Obligations.SpecWordsDecode := by
  unfold Obligations.SpecWordsDecode
  decide

end Sys2Proof
end

section
/-! What the meanings answer (`spec/30_encoding.md` R65 to R69): a fault or a completed response, what the response depends on,
and the two statements about reading: the unassigned code, and fields that no operation reads. -/

namespace Sys2Proof.Machine

/-! ### A fault or a completed response -/

/-- The response of an operation: completed, or a fault whose cause is `ILLEGAL_OP` for the unassigned code only (R67). -/
inductive AnswerOf (i : Instr) : Response → Prop
  | completed {r : Response} (hfault : r.fault = false) (hcause : r.cause = 0#3) : AnswerOf i r
  | faulted (c : Cause) (h : c = .illegalOp → i = .illegal8) : AnswerOf i (Response.faulted c)

/-- One check of a meaning, for a cause other than `ILLEGAL_OP`. -/
theorem AnswerOf.check {i : Instr} {p : Prop} [Decidable p] {c : Cause} {r : Response} (hc : c ≠ .illegalOp)
    (h : AnswerOf i r) : AnswerOf i (if p then Response.faulted c else r) :=
  iteInduction (fun _ => .faulted c fun e => absurd e hc) fun _ => h

/-- Every meaning is a row of checks with a completed response behind them. -/
theorem exec_answerOf (i : Instr) (s : State) : ∃ r, exec i s = .next (s.drive r) ∧ AnswerOf i r := by
  have hdim : Cause.dim ≠ .illegalOp := by decide
  have hwidth : Cause.operandWidth ≠ .illegalOp := by decide
  have hposition : Cause.position ≠ .illegalOp := by decide
  have hcount : Cause.count ≠ .illegalOp := by decide
  have hrange : Cause.rngRange ≠ .illegalOp := by decide
  cases i with
  | gfmul rows cols a => exact ⟨_, execGfmul_eq rows cols a s, .check hdim (.completed rfl rfl)⟩
  | enc7 a => exact ⟨_, execEnc7_eq a s, .check hwidth (.completed rfl rfl)⟩
  | syn7 a => exact ⟨_, execSyn7_eq a s, .check hwidth (.completed rfl rfl)⟩
  | epos7 a => exact ⟨_, execEpos7_eq a s, .check hwidth (.completed rfl rfl)⟩
  | cor7 idx a => exact ⟨_, execCor7_eq idx a s, .check hwidth (.check hposition (.completed rfl rfl))⟩
  | ext7 a => exact ⟨_, execExt7_eq a s, .check hwidth (.completed rfl rfl)⟩
  | inj7 a => exact ⟨_, execInj7_eq a s, .check hwidth (.check hrange (.completed rfl rfl))⟩
  | flip7 idx b a => exact ⟨_, execFlip7_eq idx b a s, .check hwidth (.check hposition (.completed rfl rfl))⟩
  | illegal8 => exact ⟨_, execIllegal8_eq s, .faulted .illegalOp fun _ => rfl⟩
  | enc8 a => exact ⟨_, execEnc8_eq a s, .check hwidth (.completed rfl rfl)⟩
  | syn8 a => exact ⟨_, execSyn8_eq a s, .completed rfl rfl⟩
  | cls8 a => exact ⟨_, execCls8_eq a s, .check hwidth (.completed rfl rfl)⟩
  | cor8 idx a => exact ⟨_, execCor8_eq idx a s, .completed rfl rfl⟩
  | ext8 a => exact ⟨_, execExt8_eq a s, .completed rfl rfl⟩
  | inj8 idx a =>
    exact ⟨_, execInj8_eq idx a s,
      .check hcount (iteInduction (fun _ => .completed rfl rfl) fun _ => .check hrange (.completed rfl rfl))⟩
  | flip8 idx b a => exact ⟨_, execFlip8_eq idx b a s, .check hposition (.completed rfl rfl)⟩

theorem AnswerOf.cause_ne_illegalOp {i : Instr} {r : Response} (h : AnswerOf i r) (hi : i ≠ .illegal8) : r.cause ≠ 1#3 := by
  cases h with
  | completed _ hcause => simp [hcause]
  | faulted c hc =>
    cases c with
    | illegalOp => exact absurd (hc rfl) hi
    | operandWidth | dim | count | position | rngRange => decide

/-- Settles O6: the code `0x8` alone decodes to the unassigned instruction, and no other meaning checks for `ILLEGAL_OP`. -/
theorem unassignedOpFaults : Obligations.UnassignedOpFaults := by
  refine ⟨fun idx b a => ?_, execIllegal8_eq, fun w hw h => ?_, fun i s hi => ?_⟩
  · rw [decode_eq_illegal8_iff, opField_command]
  · exact hw ((decode_eq_illegal8_iff w).mp h)
  · obtain ⟨r, hr, ha⟩ := exec_answerOf i s
    exact ⟨r, hr, ha.cause_ne_illegalOp hi⟩

/-! ### Unread bits -/

/-- Two words that agree in the bits of a mask. -/
theorem and_eq_and_of_xor_and_eq_zero {n : Nat} {v w m : BitVec n} (h : (v ^^^ w) &&& m = 0#n) : v &&& m = w &&& m := by
  rw [← BitVec.xor_eq_zero_iff, ← h]
  exact BitVec.eq_of_toNat_eq (by simp [Nat.and_xor_distrib_right])

theorem opField_and_readMask (w : CmdWord) (op : Nibble) : opField (w &&& readMask op) = opField w := by
  rw [← command_fields w, ← command_fields (readMask op), command_and, opField_command, opField_command, opField_readMask]
  exact BitVec.and_allOnes

/-- The decoder looks at the bits of the read mask only: what it keeps of a word is `encode_decode`, and decoding what it keeps
gives the instruction back. -/
theorem decode_congr {v w : CmdWord} (h : v &&& readMask (opField v) = w &&& readMask (opField v)) : decode v = decode w := by
  have hop : opField v = opField w := by
    rw [← opField_and_readMask v (opField v), h, opField_and_readMask]
  have henc : encode (decode v) = encode (decode w) := by
    rw [encode_decode, encode_decode, h, hop]
  simpa using congrArg decode henc

theorem draw0_congr {d e m : RndWord} (hm : m.extractLsb' 0 3 = 0b111#3) (h : d &&& m = e &&& m) : draw0 d = draw0 e := by
  have key (x : RndWord) : (x &&& m).extractLsb' 0 3 = x.extractLsb' 0 3 := by
    rw [BitVec.extractLsb'_and, hm]
    exact BitVec.and_allOnes
  rw [draw0, draw0, ← key d, h, key e]

theorem draw1_congr {d e m : RndWord} (hm : m.extractLsb' 3 3 = 0b111#3) (h : d &&& m = e &&& m) : draw1 d = draw1 e := by
  have key (x : RndWord) : (x &&& m).extractLsb' 3 3 = x.extractLsb' 3 3 := by
    rw [BitVec.extractLsb'_and, hm]
    exact BitVec.and_allOnes
  rw [draw1, draw1, ← key d, h, key e]

theorem exec_inj8_one (a : Byte) (s : State) : exec (.inj8 1#4 a) s = .next (s.drive (inj8One a (draw0 s.rnd))) :=
  execInj8_eq 1#4 a s

theorem exec_inj8_two (a : Byte) (s : State) :
    exec (.inj8 2#4 a) s = .next (s.drive (if 6 < draw1 s.rnd then Response.faulted .rngRange
      else inj8Two a (draw0 s.rnd) (secondPosition (draw0 s.rnd) (draw1 s.rnd)))) :=
  execInj8_eq 2#4 a s

theorem exec_inj8_of_count {idx : Nibble} (h1 : idx ≠ 1#4) (h2 : idx ≠ 2#4) (a : Byte) (s : State) :
    exec (.inj8 idx a) s = .next (s.drive (Response.faulted .count)) := by
  have hcount : (uint idx < 1 || 2 < uint idx) = true := by
    revert idx; decide
  exact (execInj8_eq idx a s).trans (by rw [if_pos hcount])

/-- `INJ8` answers alike on draws that agree where its count has it read them (R142). -/
theorem exec_inj8_alike {w : CmdWord} {idx : Nibble} {a : Byte} {s t : State} (hw : decode w = .inj8 idx a)
    (h : s.rnd &&& rndReadMask w = t.rnd &&& rndReadMask w) :
    ∃ r, exec (.inj8 idx a) s = .next (s.drive r) ∧ exec (.inj8 idx a) t = .next (t.drive r) := by
  have hop : opField w = 0xE#4 := by rw [← op_decode, hw, Instr.op]
  have hidx : idxField w = idx := by
    simp only [decode, hop, Instr.inj8.injEq] at hw
    exact hw.1
  by_cases h1 : idx = 1#4
  · have hmask : rndReadMask w = 0b000111#6 := by simp [rndReadMask, hop, hidx, h1]
    rw [hmask] at h
    subst h1
    exact ⟨_, exec_inj8_one a s, draw0_congr rfl h ▸ exec_inj8_one a t⟩
  · by_cases h2 : idx = 2#4
    · have hmask : rndReadMask w = 0b111111#6 := by simp [rndReadMask, hop, hidx, h2]
      rw [hmask] at h
      subst h2
      exact ⟨_, exec_inj8_two a s, draw0_congr rfl h ▸ draw1_congr rfl h ▸ exec_inj8_two a t⟩
    · exact ⟨_, exec_inj8_of_count h1 h2 a s, exec_inj8_of_count h1 h2 a t⟩

/-- `INJ7` answers alike on draws that agree in `r0` (R141). -/
theorem exec_inj7_alike {w : CmdWord} {a : Byte} {s t : State} (hw : decode w = .inj7 a)
    (h : s.rnd &&& rndReadMask w = t.rnd &&& rndReadMask w) :
    ∃ r, exec (.inj7 a) s = .next (s.drive r) ∧ exec (.inj7 a) t = .next (t.drive r) := by
  have hop : opField w = 0x6#4 := by rw [← op_decode, hw, Instr.op]
  have hmask : rndReadMask w = 0b000111#6 := by simp [rndReadMask, hop]
  rw [hmask] at h
  exact ⟨_, execInj7_eq a s, draw0_congr rfl h ▸ execInj7_eq a t⟩

/-- Two states with the ports alike that a command reads answer it alike. -/
theorem exec_decode_alike {w : CmdWord} {s t : State} (hmat : opField w = 0x0#4 → s.mat = t.mat)
    (hrnd : s.rnd &&& rndReadMask w = t.rnd &&& rndReadMask w) :
    ∃ r, exec (decode w) s = .next (s.drive r) ∧ exec (decode w) t = .next (t.drive r) := by
  cases hw : decode w with
  | gfmul rows cols a =>
    have hop : opField w = 0x0#4 := by rw [← op_decode, hw, Instr.op]
    exact ⟨_, execGfmul_eq rows cols a s, hmat hop ▸ execGfmul_eq rows cols a t⟩
  | enc7 a => exact ⟨_, execEnc7_eq a s, execEnc7_eq a t⟩
  | syn7 a => exact ⟨_, execSyn7_eq a s, execSyn7_eq a t⟩
  | epos7 a => exact ⟨_, execEpos7_eq a s, execEpos7_eq a t⟩
  | cor7 idx a => exact ⟨_, execCor7_eq idx a s, execCor7_eq idx a t⟩
  | ext7 a => exact ⟨_, execExt7_eq a s, execExt7_eq a t⟩
  | inj7 a => exact exec_inj7_alike hw hrnd
  | flip7 idx b a => exact ⟨_, execFlip7_eq idx b a s, execFlip7_eq idx b a t⟩
  | illegal8 => exact ⟨_, execIllegal8_eq s, execIllegal8_eq t⟩
  | enc8 a => exact ⟨_, execEnc8_eq a s, execEnc8_eq a t⟩
  | syn8 a => exact ⟨_, execSyn8_eq a s, execSyn8_eq a t⟩
  | cls8 a => exact ⟨_, execCls8_eq a s, execCls8_eq a t⟩
  | cor8 idx a => exact ⟨_, execCor8_eq idx a s, execCor8_eq idx a t⟩
  | ext8 a => exact ⟨_, execExt8_eq a s, execExt8_eq a t⟩
  | inj8 idx a => exact exec_inj8_alike hw hrnd
  | flip8 idx b a => exact ⟨_, execFlip8_eq idx b a s, execFlip8_eq idx b a t⟩

/-- Settles O7: the two commands decode to one instruction, which finds the same on what it reads of the ports. -/
theorem unreadFieldsAreIgnored : Obligations.UnreadFieldsAreIgnored := by
  intro s t hcmd hmat hrnd
  rw [step_eq_exec_decode, step_eq_exec_decode, ← decode_congr (and_eq_and_of_xor_and_eq_zero hcmd)]
  exact exec_decode_alike hmat (and_eq_and_of_xor_and_eq_zero hrnd)

end Sys2Proof.Machine
end

section
/-! The fields of a response (`spec/30_encoding.md` R68, R69): how far a vector reaches, what each operation drives, and where
the packed word has each field. -/

namespace Sys2Proof.Machine

/-! ### Vectors within their length -/

/-- A vector is within its length exactly when the wires from there on are 0 (R43). -/
theorem toNat_lt_two_pow_iff {n : Nat} {v : Byte} : v.toNat < 2 ^ n ↔ ∀ i, n ≤ i → v.getLsbD i = false :=
  ⟨fun h _ hi => Nat.testBit_lt_two_pow (Nat.lt_of_lt_of_le h (Nat.pow_le_pow_right Nat.two_pos hi)),
    fun h => Nat.lt_pow_two_of_testBit _ h⟩

theorem packBits_lt (n : Nat) (f : Nat → Bool) : (packBits n f).toNat < 2 ^ n :=
  toNat_lt_two_pow_iff.mpr fun i hi => by simp [getLsbD_packBits, Nat.not_lt.mpr hi]

theorem multiply_lt (rows cols : Nat) (m : MatWord) (v : Byte) : (multiply rows cols m v).toNat < 2 ^ rows :=
  packBits_lt ..

theorem project_lt (idxs : List Nat) (v : Byte) : (project idxs v).toNat < 2 ^ idxs.length := by
  simpa [project, vec] using packBits_lt idxs.length fun i => (idxs.map v.getLsbD).getD i false

theorem lt_of_not_tooWide {n : Nat} {v : Byte} (h : ¬tooWide n v = true) : v.toNat < 2 ^ n := by
  simpa [tooWide_eq] using h

/-- A flip at an index of the vector stays in the vector. -/
theorem flipBit_lt {n i : Nat} {v : Byte} (hv : v.toNat < 2 ^ n) (hi : i < n) : (flipBit v i).toNat < 2 ^ n := by
  rw [toNat_lt_two_pow_iff] at hv ⊢
  intro j hj
  simp [getLsbD_flipBit, hv j hj, show j ≠ i by omega]

theorem correct7_lt {v : Byte} {p : Nat} (hv : v.toNat < 2 ^ 7) (hp : p ≤ 7) : (correct7 v p).toNat < 2 ^ 7 := by
  unfold correct7
  split
  · exact hv
  · exact flipBit_lt hv (by omega)

/-! ### Numbers within their field -/

theorem toNat_toField {n : Nat} (h : n < 16) : (toField n).toNat = n := by
  simpa [toField] using h

theorem syndromeValue_le (z : Byte) : syndromeValue z ≤ 7 := by
  have h (b : Bool) : bitValue b ≤ 1 := by cases b <;> decide
  have h0 := h (z.getLsbD 0)
  have h1 := h (z.getLsbD 1)
  have h2 := h (z.getLsbD 2)
  unfold syndromeValue
  omega

theorem toNat_toField_syndromeValue_le (z : Byte) : (toField (syndromeValue z)).toNat ≤ 7 := by
  have h := syndromeValue_le z
  rwa [toNat_toField (show syndromeValue z < 16 by omega)]

theorem popcount_le (v : Byte) : popcount v ≤ 8 :=
  countTrue_le ..

theorem draw0_lt (rnd : RndWord) : draw0 rnd < 8 :=
  BitVec.isLt _

/-! ### The error set and the flips -/

/-- The error set of two words of the length is their difference (R143). -/
theorem errorSet_eq_xor {n : Nat} {r o : Byte} (hr : r.toNat < 2 ^ n) (ho : o.toNat < 2 ^ n) : errorSet n r o = r ^^^ o := by
  rw [toNat_lt_two_pow_iff] at hr ho
  refine BitVec.eq_of_getLsbD_eq fun j hj => ?_
  rw [getLsbD_errorSet, BitVec.getLsbD_xor]
  by_cases h : j < n
  · simp [h, hj]
  · simp [h, hr j (by omega), ho j (by omega)]

theorem flipResult_lt {n cap i : Nat} {r o : Byte} (hr : r.toNat < 2 ^ n) (hi : i < n) :
    (flipResult n cap r o i).toNat < 2 ^ n :=
  iteInduction (motive := fun v : Byte => v.toNat < 2 ^ n) (fun _ => flipBit_lt hr hi) fun _ => hr

/-- A manual flip answers a word of the length, its error set and the size of the set (R143). -/
theorem flipResponse_fields {n i : Nat} {r o : Byte} (cap : Nat) (hr : r.toNat < 2 ^ n) (ho : o.toNat < 2 ^ n) (hi : i < n) :
    (flipResponse n cap r o i).y.toNat < 2 ^ n ∧ (flipResponse n cap r o i).mask.toNat < 2 ^ n ∧
      (flipResponse n cap r o i).mask = (flipResponse n cap r o i).y ^^^ o ∧
      (flipResponse n cap r o i).cnt.toNat = popcount (flipResponse n cap r o i).mask :=
  ⟨flipResult_lt hr hi, packBits_lt .., errorSet_eq_xor (flipResult_lt hr hi) ho,
    toNat_toField (Nat.lt_of_le_of_lt (popcount_le _) (by decide))⟩

/-- The second position is another than the first (R142). -/
theorem secondPosition_ne (q0 r1 : Nat) : secondPosition q0 r1 ≠ q0 := by
  unfold secondPosition
  split <;> omega

theorem secondPosition_le {r1 : Nat} (q0 : Nat) (h : r1 ≤ 6) : secondPosition q0 r1 ≤ 7 := by
  unfold secondPosition
  split <;> omega

/-- Two flips at different indices differ from the word in the set of the two. -/
theorem flipBit_flipBit_of_ne {p q : Nat} (v : Byte) (h : q ≠ p) :
    flipBit (flipBit v p) q = v ^^^ (single p ||| single q) := by
  refine BitVec.eq_of_getLsbD_eq fun j hj => ?_
  simp only [getLsbD_flipBit, BitVec.getLsbD_xor, BitVec.getLsbD_or, getLsbD_single, hj, decide_true, Bool.true_and,
    Bool.xor_assoc]
  by_cases hp : j = p
  · simp [hp, h.symm]
  · simp [hp]

/-- The position that `INJ7` reports is 1-indexed (R141). -/
theorem inj7_fields {a : Byte} {q : Nat} (ha : a.toNat < 2 ^ 7) (hq : q ≤ 6) :
    (flipBit a q).toNat < 2 ^ 7 ∧ 1 ≤ (toField (q + 1)).toNat ∧ (toField (q + 1)).toNat ≤ 7 ∧
      single q = 1#8 <<< ((toField (q + 1)).toNat - 1) ∧ flipBit a q = a ^^^ single q := by
  rw [toNat_toField (show q + 1 < 16 by omega)]
  exact ⟨flipBit_lt ha (by omega), by omega, by omega, rfl, rfl⟩

theorem single_toField {q : Nat} (h : q ≤ 7) : single q = 1#8 <<< (toField q).toNat := by
  rw [toNat_toField (show q < 16 by omega), single]

/-! ### Past a check -/

/-- What holds of a completed response need be shown past the check only. -/
theorem completes_past_check {o : Host.Outcome State Fault Refusal} {p : Prop} [Decidable p] {c : Cause} {r : Response}
    {s : State} {Q : Response → Prop} (ho : o = .next (s.drive (if p then Response.faulted c else r)))
    (h : ¬p → o = .next (s.drive r) → ∃ q, o = .next (s.drive q) ∧ (q.fault = false → Q q)) :
    ∃ q, o = .next (s.drive q) ∧ (q.fault = false → Q q) := by
  by_cases hp : p
  · rw [if_pos hp] at ho
    exact ⟨_, ho, nofun⟩
  · rw [if_neg hp] at ho
    exact h hp ho

/-! ### The statements -/

/-- Settles O15: a completed response has passed the checks of its operation, and those bound the operands of the result. -/
theorem onlyDrivenFieldsAreSet : Obligations.OnlyDrivenFieldsAreSet := by
  intro i s
  cases i with
  | gfmul rows cols a =>
    exact completes_past_check (execGfmul_eq rows cols a s) fun _ ho => ⟨_, ho, fun _ => ⟨rfl, multiply_lt ..⟩⟩
  | enc7 a => exact completes_past_check (execEnc7_eq a s) fun _ ho => ⟨_, ho, fun _ => ⟨rfl, multiply_lt ..⟩⟩
  | syn7 a => exact completes_past_check (execSyn7_eq a s) fun _ ho => ⟨_, ho, fun _ => ⟨rfl, multiply_lt ..⟩⟩
  | epos7 a =>
    exact completes_past_check (execEpos7_eq a s) fun _ ho => ⟨_, ho, fun _ => ⟨rfl, toNat_toField_syndromeValue_le a⟩⟩
  | cor7 idx a =>
    exact completes_past_check (execCor7_eq idx a s) fun hw ho => completes_past_check ho fun hp ho =>
      ⟨_, ho, fun _ => ⟨rfl, correct7_lt (lt_of_not_tooWide hw) (Nat.not_lt.mp hp)⟩⟩
  | ext7 a => exact completes_past_check (execExt7_eq a s) fun _ ho => ⟨_, ho, fun _ => ⟨rfl, project_lt ..⟩⟩
  | inj7 a =>
    exact completes_past_check (execInj7_eq a s) fun hw ho => completes_past_check ho fun hd ho =>
      ⟨_, ho, fun _ => ⟨rfl, inj7_fields (lt_of_not_tooWide hw) (Nat.not_lt.mp hd)⟩⟩
  | flip7 idx b a =>
    refine completes_past_check (execFlip7_eq idx b a s) fun hw ho => completes_past_check ho fun hp ho =>
      ⟨_, ho, fun _ => ?_⟩
    obtain ⟨ha, hb⟩ := not_or.mp (mt Bool.or_eq_true_iff.mpr hw)
    exact ⟨rfl, flipResponse_fields 1 (lt_of_not_tooWide ha) (lt_of_not_tooWide hb) (Nat.lt_succ_of_le (Nat.not_lt.mp hp))⟩
  | illegal8 => exact ⟨_, execIllegal8_eq s, nofun⟩
  | enc8 a => exact completes_past_check (execEnc8_eq a s) fun _ ho => ⟨_, ho, fun _ => rfl⟩
  | syn8 a => exact ⟨_, execSyn8_eq a s, fun _ => ⟨rfl, multiply_lt ..⟩⟩
  | cls8 a => exact completes_past_check (execCls8_eq a s) fun _ ho => ⟨_, ho, fun _ => rfl⟩
  | cor8 idx a => exact ⟨_, execCor8_eq idx a s, fun _ => rfl⟩
  | ext8 a => exact ⟨_, execExt8_eq a s, fun _ => ⟨rfl, project_lt ..⟩⟩
  | inj8 idx a =>
    by_cases h1 : idx = 1#4
    · subst h1
      exact ⟨_, exec_inj8_one a s, fun _ =>
        ⟨rfl, rfl, fun _ => ⟨rfl, single_toField (Nat.le_of_lt_succ (draw0_lt s.rnd))⟩, nofun⟩⟩
    · by_cases h2 : idx = 2#4
      · subst h2
        refine completes_past_check (exec_inj8_two a s) fun hd ho => ⟨_, ho, fun _ => ?_⟩
        have hp := single_toField (Nat.le_of_lt_succ (draw0_lt s.rnd))
        have hq := single_toField (secondPosition_le (draw0 s.rnd) (Nat.not_lt.mp hd))
        exact ⟨rfl, flipBit_flipBit_of_ne a (secondPosition_ne _ _), nofun, fun _ => congrArg₂ (· ||| ·) hp hq⟩
      · exact ⟨_, exec_inj8_of_count h1 h2 a s, nofun⟩
  | flip8 idx b a =>
    refine completes_past_check (execFlip8_eq idx b a s) fun hp ho => ⟨_, ho, fun _ => ?_⟩
    obtain ⟨_, _, hmask, hcnt⟩ := flipResponse_fields 2 a.isLt b.isLt (Nat.lt_succ_of_le (Nat.not_lt.mp hp))
    exact ⟨rfl, hmask, hcnt⟩

/-- Settles O16: the fields that stand below one in the packed word are cut off, and the lowest that is left is the field. -/
theorem packedResponseLayout : Obligations.PackedResponseLayout := by
  intro r
  unfold Response.packed
  refine ⟨?y, ?mask, ?pos, ?pos2, ?cnt, ?etype, ?cc, ?acc, ?fault, ?cause⟩
  case y => rw [BitVec.extractLsb'_append_eq_right]
  case mask =>
    rw [BitVec.extractLsb'_append_eq_of_le (by decide)]
    exact BitVec.extractLsb'_append_eq_right
  case pos =>
    iterate 2 rw [BitVec.extractLsb'_append_eq_of_le (by decide)]
    exact BitVec.extractLsb'_append_eq_right
  case pos2 =>
    iterate 3 rw [BitVec.extractLsb'_append_eq_of_le (by decide)]
    exact BitVec.extractLsb'_append_eq_right
  case cnt =>
    iterate 4 rw [BitVec.extractLsb'_append_eq_of_le (by decide)]
    exact BitVec.extractLsb'_append_eq_right
  case etype =>
    iterate 5 rw [BitVec.extractLsb'_append_eq_of_le (by decide)]
    exact BitVec.extractLsb'_append_eq_right
  case cc =>
    iterate 7 rw [BitVec.getLsbD_append]
    simp
  case acc =>
    iterate 8 rw [BitVec.getLsbD_append]
    simp
  case fault =>
    iterate 9 rw [BitVec.getLsbD_append]
    simp
  case cause =>
    iterate 9 rw [BitVec.extractLsb'_append_eq_of_le (by decide)]
    exact BitVec.extractLsb'_eq_self

end Sys2Proof.Machine
end

section
/-! Well-formed commands (log entry 11): the conditions of `Instr.wellFormed` are checks that the meanings make, and what else
they check passes when the ports `mat` and `rnd` hold 0. -/

namespace Sys2Proof.Machine

/-! ### The conditions are checks of the meanings -/

theorem hasLength_iff (len : Nat) (v : Byte) : hasLength len v = true ↔ ¬tooWide len v = true := by
  rw [tooWide_eq, hasLength, decide_eq_true_eq, decide_eq_true_eq, Nat.not_le]

/-- A vector on all eight wires has its length. -/
theorem hasLength_eight (v : Byte) : hasLength 8 v = true :=
  decide_eq_true v.isLt

theorem badDim_iff (n : Nat) : badDim n = true ↔ ¬(1 ≤ n ∧ n ≤ Config.gfmulMaxDim) := by
  rw [badDim, Bool.or_eq_true, decide_eq_true_eq, decide_eq_true_eq]
  omega

/-- `GFMUL` checks its command and the matrix beyond its dimensions (R91). -/
theorem gfmulMismatch_iff (rows cols : Nibble) (a : Byte) (m : MatWord) :
    gfmulMismatch (uint rows) (uint cols) a m = true ↔
      ¬(Instr.gfmul rows cols a).wellFormed = true ∨ strayEntry (uint rows) (uint cols) m = true := by
  simp only [gfmulMismatch, Instr.wellFormed, Bool.or_eq_true, Bool.and_eq_true, decide_eq_true_eq, badDim_iff, hasLength_iff,
    uint]
  tauto

/-- The matrix without entries has none beyond its dimensions. -/
theorem strayEntry_zero (rows cols : Nat) : strayEntry rows cols 0#64 = false := by
  simp [strayEntry, entry]

theorem cor7_wellFormed_iff (idx : Nibble) (a : Byte) :
    (Instr.cor7 idx a).wellFormed = true ↔ ¬tooWide 7 a = true ∧ ¬7 < uint idx := by
  rw [Instr.wellFormed, Bool.and_eq_true, decide_eq_true_eq, hasLength_iff, Nat.not_lt]
  rfl

theorem flip7_wellFormed_iff (idx : Nibble) (b a : Byte) :
    (Instr.flip7 idx b a).wellFormed = true ↔ ¬(tooWide 7 a || tooWide 7 b) = true ∧ ¬6 < uint idx := by
  rw [Instr.wellFormed, Bool.and_eq_true, Bool.and_eq_true, decide_eq_true_eq, hasLength_iff, hasLength_iff, Bool.or_eq_true,
    not_or, Nat.not_lt]
  rfl

/-- `FLIP8` has vectors on all wires, so the index alone counts. -/
theorem flip8_wellFormed_iff (idx : Nibble) (b a : Byte) : (Instr.flip8 idx b a).wellFormed = true ↔ ¬7 < uint idx := by
  simp [Instr.wellFormed, Config.codeBits8, hasLength_eight, uint]

/-- `INJ8` has a vector on all wires, so the count alone counts. -/
theorem inj8_wellFormed_iff (idx : Nibble) (a : Byte) :
    (Instr.inj8 idx a).wellFormed = true ↔ idx = 1#4 ∨ idx = 2#4 := by
  simp only [Instr.wellFormed, Config.codeBits8, hasLength_eight, Bool.true_and, decide_eq_true_eq]
  revert idx
  decide

/-! ### Ill-formed commands fault -/

/-- A meaning faults at its check, if that applies, or past it. -/
theorem faults_at_or_past_check {o : Host.Outcome State Fault Refusal} {p : Prop} [Decidable p] {c : Cause} {r : Response}
    {s : State} (ho : o = .next (s.drive (if p then Response.faulted c else r)))
    (h : ¬p → o = .next (s.drive r) → ∃ c, o = .next (s.drive (Response.faulted c))) :
    ∃ c, o = .next (s.drive (Response.faulted c)) := by
  by_cases hp : p
  · rw [if_pos hp] at ho
    exact ⟨c, ho⟩
  · rw [if_neg hp] at ho
    exact h hp ho

/-- A command past all the checks of its meaning that look at the command alone would be well formed. -/
theorem exec_faults_of_not_wellFormed {i : Instr} (h : ¬i.wellFormed = true) (s : State) :
    ∃ c, exec i s = .next (s.drive (Response.faulted c)) := by
  cases i with
  | gfmul rows cols a => exact ⟨_, exec_gfmul_of_mismatch ((gfmulMismatch_iff ..).mpr (.inl h))⟩
  | enc7 a => exact faults_at_or_past_check (execEnc7_eq a s) fun hw _ => absurd ((hasLength_iff 4 a).mpr hw) h
  | syn7 a => exact faults_at_or_past_check (execSyn7_eq a s) fun hw _ => absurd ((hasLength_iff 7 a).mpr hw) h
  | epos7 a => exact faults_at_or_past_check (execEpos7_eq a s) fun hw _ => absurd ((hasLength_iff 3 a).mpr hw) h
  | cor7 idx a =>
    exact faults_at_or_past_check (execCor7_eq idx a s) fun hw ho => faults_at_or_past_check ho fun hp _ =>
      absurd ((cor7_wellFormed_iff idx a).mpr ⟨hw, hp⟩) h
  | ext7 a => exact faults_at_or_past_check (execExt7_eq a s) fun hw _ => absurd ((hasLength_iff 7 a).mpr hw) h
  | inj7 a => exact faults_at_or_past_check (execInj7_eq a s) fun hw _ => absurd ((hasLength_iff 7 a).mpr hw) h
  | flip7 idx b a =>
    exact faults_at_or_past_check (execFlip7_eq idx b a s) fun hw ho => faults_at_or_past_check ho fun hp _ =>
      absurd ((flip7_wellFormed_iff idx b a).mpr ⟨hw, hp⟩) h
  | illegal8 => exact ⟨_, execIllegal8_eq s⟩
  | enc8 a => exact faults_at_or_past_check (execEnc8_eq a s) fun hw _ => absurd ((hasLength_iff 4 a).mpr hw) h
  | cls8 a => exact faults_at_or_past_check (execCls8_eq a s) fun hw _ => absurd ((hasLength_iff 4 a).mpr hw) h
  | syn8 a | cor8 _ a | ext8 a => exact absurd (hasLength_eight a) h
  | inj8 idx a =>
    obtain ⟨h1, h2⟩ := not_or.mp (mt (inj8_wellFormed_iff idx a).mpr h)
    exact ⟨_, exec_inj8_of_count h1 h2 a s⟩
  | flip8 idx b a =>
    exact faults_at_or_past_check (execFlip8_eq idx b a s) fun hp _ => absurd ((flip8_wellFormed_iff idx b a).mpr hp) h

/-! ### Well-formed commands complete on ports that hold 0 -/

/-- A meaning completes if its check does not apply and it completes past it. -/
theorem completes_of_check {o : Host.Outcome State Fault Refusal} {p : Prop} [Decidable p] {c : Cause} {r : Response}
    {s : State} (ho : o = .next (s.drive (if p then Response.faulted c else r))) (hp : ¬p) (hr : r.fault = false) :
    ∃ r, o = .next (s.drive r) ∧ r.fault = false :=
  ⟨r, by rw [ho, if_neg hp], hr⟩

theorem exec_completes_of_wellFormed {i : Instr} (h : i.wellFormed = true) {s : State} (hmat : s.mat = 0#64)
    (hrnd : s.rnd = 0#6) : ∃ r, exec i s = .next (s.drive r) ∧ r.fault = false := by
  cases i with
  | gfmul rows cols a =>
    refine completes_of_check (execGfmul_eq rows cols a s) (fun hm => ?_) rfl
    rw [hmat, gfmulMismatch_iff, strayEntry_zero] at hm
    exact hm.elim (fun hn => hn h) nofun
  | enc7 a => exact completes_of_check (execEnc7_eq a s) ((hasLength_iff 4 a).mp h) rfl
  | syn7 a => exact completes_of_check (execSyn7_eq a s) ((hasLength_iff 7 a).mp h) rfl
  | epos7 a => exact completes_of_check (execEpos7_eq a s) ((hasLength_iff 3 a).mp h) rfl
  | cor7 idx a =>
    obtain ⟨hw, hp⟩ := (cor7_wellFormed_iff idx a).mp h
    exact completes_of_check (execCor7_eq idx a s) hw (by rw [if_neg hp])
  | ext7 a => exact completes_of_check (execExt7_eq a s) ((hasLength_iff 7 a).mp h) rfl
  | inj7 a =>
    refine completes_of_check (execInj7_eq a s) ((hasLength_iff 7 a).mp h) ?_
    rw [hrnd]
    rfl
  | flip7 idx b a =>
    obtain ⟨hw, hp⟩ := (flip7_wellFormed_iff idx b a).mp h
    exact completes_of_check (execFlip7_eq idx b a s) hw (by rw [if_neg hp, flipResponse])
  | illegal8 => cases h
  | enc8 a => exact completes_of_check (execEnc8_eq a s) ((hasLength_iff 4 a).mp h) rfl
  | syn8 a => exact ⟨_, execSyn8_eq a s, rfl⟩
  | cls8 a => exact completes_of_check (execCls8_eq a s) ((hasLength_iff 4 a).mp h) rfl
  | cor8 idx a => exact ⟨_, execCor8_eq idx a s, rfl⟩
  | ext8 a => exact ⟨_, execExt8_eq a s, rfl⟩
  | inj8 idx a =>
    obtain rfl | rfl := (inj8_wellFormed_iff idx a).mp h
    · exact ⟨_, exec_inj8_one a s, rfl⟩
    · exact completes_of_check (exec_inj8_two a s) (by rw [hrnd]; decide) rfl
  | flip8 idx b a => exact completes_of_check (execFlip8_eq idx b a s) ((flip8_wellFormed_iff idx b a).mp h) rfl

/-- Settles O21: the conditions of a well-formed command are the checks on the command; ports that hold 0 pass the others. -/
theorem wellFormedMeansFaultOnlyOnPorts : Obligations.WellFormedMeansFaultOnlyOnPorts :=
  ⟨fun _ s h => exec_faults_of_not_wellFormed (Bool.eq_false_iff.mp h) s,
    fun _ h => ⟨0#64, 0#6, fun _ hmat hrnd => exec_completes_of_wellFormed h hmat hrnd⟩⟩

end Sys2Proof.Machine
end

section
/-! `DEC7` and `DEC8` (`spec/30_encoding.md` R73): one transaction of a run, the run of each of the two wherever it is placed,
and the statement that the place and the source of the word do not matter. -/

namespace Sys2Proof.Machine

/-! ### One transaction of a run -/

/-- An operand that gives the number of a word puts the word on the wires. -/
theorem wires?_of_value? {e : List Response} {w : Nat} {o : HostOperand} {v : BitVec w} (h : o.value? e = some v.toNat) :
    o.wires? e w = some v :=
  wires?_eq_some.mpr ⟨v.toNat, h, v.isLt, BitVec.eq_of_toNat_eq (by simp)⟩

/-- The response just appended is the one that `label.field` names. -/
theorem value?_field_append {e : List Response} {label : Nat} (h : label = e.length) (r : Response) (f : RspField) :
    (HostSource.field label f).value? (e ++ [r]) = some (r.value f) := by
  simp [HostSource.value?, h]

theorem value?_posIfSingle_append {e : List Response} {label : Nat} (h : label = e.length) (r : Response) :
    (HostSource.posIfSingle label).value? (e ++ [r]) =
      some (if r.etype = ErrorType.single.code then r.pos.toNat else 15) := by
  simp [HostSource.value?, h]

/-- What a transaction with an `idx` and an `a` puts on the ports, its other operands 0. -/
theorem inputs?_of_values {e : List Response} {op idx : Nibble} {a : Byte} {sidx sa : HostSource}
    (hidx : sidx.value? e = some idx.toNat) (ha : sa.value? e = some a.toNat) :
    ({ op := op, idx := .whole sidx, a := .whole sa } : HostStep).inputs? e = some (command op idx 0#8 a, 0#64, 0#6) := by
  have hzero (w : Nat) : (HostOperand.value 0).wires? e w = some 0#w :=
    wires?_of_value? (by simp [HostOperand.value?, HostSource.value?])
  have hcommand : HostStep.command? e { op := op, idx := .whole sidx, a := .whole sa } = some (command op idx 0#8 a) := by
    simp only [HostStep.command?, hzero, wires?_of_value? (o := .whole sidx) hidx, wires?_of_value? (o := .whole sa) ha]
  exact inputs?_eq_some.mpr ⟨hcommand, hzero 64, hzero 6⟩

/-- A transaction that completes adds its response to the run; what it leaves on the ports does not matter (R46). -/
theorem runHost_cons_completes {e : List Response} {op idx : Nibble} {a : Byte} {sidx sa : HostSource} {i : Instr}
    {r : Response} (p : List HostStep) (s : State) (hidx : sidx.value? e = some idx.toNat) (ha : sa.value? e = some a.toNat)
    (hi : decode (command op idx 0#8 a) = i) (hexec : ∀ t, exec i t = .next (t.drive r)) (hr : r.fault = false) :
    runHost ({ op := op, idx := .whole sidx, a := .whole sa } :: p) e s = runHost p (e ++ [r]) s := by
  have ht : transact (command op idx 0#8 a) 0#64 0#6 s = .next ((s.present (command op idx 0#8 a) 0#64 0#6).drive r) := by
    rw [transact, step_eq_exec_decode, State.present_cmd, hi, hexec]
    simp [Response.faultCause, hr]
  rw [runHost_cons_next p (inputs?_of_values hidx ha) ht, State.drive_rsp]
  exact runsDoNotDependOnThePorts ..

/-- A transaction that faults ends the run (R175). -/
theorem runHost_cons_faults {e : List Response} {op idx : Nibble} {a : Byte} {sidx sa : HostSource} {i : Instr}
    {c : Cause} (p : List HostStep) (s : State) (hidx : sidx.value? e = some idx.toNat) (ha : sa.value? e = some a.toNat)
    (hi : decode (command op idx 0#8 a) = i) (hexec : ∀ t, exec i t = .next (t.drive (Response.faulted c))) :
    runHost ({ op := op, idx := .whole sidx, a := .whole sa } :: p) e s = .fault (.precondition c) := by
  refine runHost_cons_fault p (inputs?_of_values hidx ha) ?_
  rw [transact, step_eq_exec_decode, State.present_cmd, hi, hexec]
  simp

/-! ### Operations on vectors within their length -/

theorem not_tooWide_of_lt {len : Nat} {v : Byte} (h : v.toNat < 2 ^ len) : ¬tooWide len v = true := by
  simpa [tooWide_eq] using h

theorem syndrome7_lt (r : Byte) : (syndrome7 r).toNat < 2 ^ 3 :=
  multiply_lt ..

theorem syndrome8_lt (r : Byte) : (syndrome8 r).toNat < 2 ^ 4 :=
  multiply_lt ..

theorem exec_enc7_of_lt {a : Byte} (h : a.toNat < 2 ^ 4) (s : State) :
    exec (.enc7 a) s = .next (s.drive { y := encode7 a }) :=
  (execEnc7_eq a s).trans (by rw [if_neg (not_tooWide_of_lt h)])

theorem exec_syn7_of_lt {a : Byte} (h : a.toNat < 2 ^ 7) (s : State) :
    exec (.syn7 a) s = .next (s.drive { y := syndrome7 a }) :=
  (execSyn7_eq a s).trans (by rw [if_neg (not_tooWide_of_lt h)])

theorem exec_epos7_of_lt {a : Byte} (h : a.toNat < 2 ^ 3) (s : State) :
    exec (.epos7 a) s = .next (s.drive { pos := toField (syndromeValue a) }) :=
  (execEpos7_eq a s).trans (by rw [if_neg (not_tooWide_of_lt h)])

theorem exec_cor7_of_lt {a : Byte} {idx : Nibble} (h : a.toNat < 2 ^ 7) (hp : uint idx ≤ 7) (s : State) :
    exec (.cor7 idx a) s = .next (s.drive { y := correct7 a (uint idx) }) :=
  (execCor7_eq idx a s).trans (by rw [if_neg (not_tooWide_of_lt h), if_neg (Nat.not_lt.mpr hp)])

theorem exec_ext7_of_lt {a : Byte} (h : a.toNat < 2 ^ 7) (s : State) :
    exec (.ext7 a) s = .next (s.drive { y := project dataIndices7 a }) :=
  (execExt7_eq a s).trans (by rw [if_neg (not_tooWide_of_lt h)])

theorem exec_enc8_of_lt {a : Byte} (h : a.toNat < 2 ^ 4) (s : State) :
    exec (.enc8 a) s = .next (s.drive { y := encode8 a }) :=
  (execEnc8_eq a s).trans (by rw [if_neg (not_tooWide_of_lt h)])

theorem exec_cls8_of_lt {a : Byte} (h : a.toNat < 2 ^ 4) (s : State) :
    exec (.cls8 a) s = .next (s.drive
      { etype := (classify a).etype.code, pos := (classify a).pos, cc := (classify a).cc }) :=
  (execCls8_eq a s).trans (by rw [if_neg (not_tooWide_of_lt h)])

/-! ### The run of `DEC7` -/

/-- The position that `EPOS7` reports for a received word (R103, R104). -/
def dec7Pos (r : Byte) : Nibble := toField (syndromeValue (syndrome7 r))

/-- The word that `COR7` makes of it (R105). -/
def dec7Word (r : Byte) : Byte := correct7 r (uint (dec7Pos r))

/-- The four responses of `DEC7` on a word that does not fault (R73). -/
def dec7Responses (r : Byte) : List Response :=
  [{ y := syndrome7 r }, { pos := dec7Pos r }, { y := dec7Word r }, { y := project dataIndices7 (dec7Word r) }]

/-- On a word of seven bits, wherever it comes from and whatever came before, the four transactions of `DEC7` complete: each
gives the next a vector within its length and a position within the word. -/
theorem runHost_dec7At {e : List Response} {src : HostSource} {r : Byte} (s : State) (hsrc : src.value? e = some r.toNat)
    (hr : r.toNat < 2 ^ 7) : runHost (dec7At e.length src) e s = .next (e ++ dec7Responses r) := by
  have hpos : uint (dec7Pos r) ≤ 7 := toNat_toField_syndromeValue_le _
  unfold dec7At
  rw [runHost_cons_completes (idx := 0#4) (i := .syn7 r) _ s rfl hsrc (by simp [decode]) (exec_syn7_of_lt hr) rfl,
    runHost_cons_completes (idx := 0#4) (i := .epos7 (syndrome7 r)) _ s rfl (value?_field_append rfl _ .y)
      (by simp [decode]) (exec_epos7_of_lt (syndrome7_lt r)) rfl,
    runHost_cons_completes (idx := dec7Pos r) (i := .cor7 (dec7Pos r) r) _ s (value?_field_append (by simp) _ .pos)
      (HostSource.value?_append _ (HostSource.value?_append _ hsrc)) (by simp [decode]) (exec_cor7_of_lt hr hpos) rfl,
    runHost_cons_completes (idx := 0#4) (i := .ext7 (dec7Word r)) _ s rfl (value?_field_append (by simp) _ .y)
      (by simp [decode, dec7Word, dec7Pos]) (exec_ext7_of_lt (correct7_lt hr hpos)) rfl]
  simp [dec7Responses, dec7Word, dec7Pos]

/-- On a longer word the first transaction faults. -/
theorem runHost_dec7At_faults {e : List Response} {src : HostSource} {r : Byte} (s : State)
    (hsrc : src.value? e = some r.toNat) (hr : 2 ^ 7 ≤ r.toNat) :
    runHost (dec7At e.length src) e s = .fault (.precondition .operandWidth) :=
  runHost_cons_faults (idx := 0#4) (i := .syn7 r) _ s rfl hsrc (by simp [decode])
    fun t => (execSyn7_eq r t).trans (by rw [if_pos (tooWide_of_le hr)])

/-! ### The run of `DEC8` -/

/-- The report of `CLS8` on a received word (R122, R123). -/
def dec8Report (r : Byte) : ErrorReport := classify (syndrome8 r)

/-- The position that the host passes to `COR8`: the reported one if the report is `single`, else -1 (R73, R184). -/
def dec8Idx (r : Byte) : Nibble := if (dec8Report r).etype.code = ErrorType.single.code then (dec8Report r).pos else 15#4

/-- The word that `COR8` makes of it (R124). -/
def dec8Word (r : Byte) : Byte := correct8 r (sint4 (dec8Idx r))

/-- The four responses of `DEC8` (R73). -/
def dec8Responses (r : Byte) : List Response :=
  [{ y := syndrome8 r },
   { etype := (dec8Report r).etype.code, pos := (dec8Report r).pos, cc := (dec8Report r).cc },
   { y := dec8Word r }, { y := project dataIndices8 (dec8Word r) }]

/-- `DEC8` completes on every word. -/
theorem runHost_dec8At {e : List Response} {src : HostSource} {r : Byte} (s : State) (hsrc : src.value? e = some r.toNat) :
    runHost (dec8At e.length src) e s = .next (e ++ dec8Responses r) := by
  have hidx : some (if (dec8Report r).etype.code = ErrorType.single.code then (dec8Report r).pos.toNat else 15) =
      some (dec8Idx r).toNat := congrArg some (apply_ite BitVec.toNat _ _ (15#4)).symm
  unfold dec8At
  rw [runHost_cons_completes (idx := 0#4) (i := .syn8 r) _ s rfl hsrc (by simp [decode]) (execSyn8_eq r) rfl,
    runHost_cons_completes (idx := 0#4) (i := .cls8 (syndrome8 r)) _ s rfl (value?_field_append rfl _ .y)
      (by simp [decode]) (exec_cls8_of_lt (syndrome8_lt r)) rfl,
    runHost_cons_completes (i := .cor8 (dec8Idx r) r) _ s ((value?_posIfSingle_append (by simp) _).trans hidx)
      (HostSource.value?_append _ (HostSource.value?_append _ hsrc)) (by simp [decode]) (execCor8_eq _ r) rfl,
    runHost_cons_completes (idx := 0#4) (i := .ext8 (dec8Word r)) _ s rfl (value?_field_append (by simp) _ .y)
      (by simp [decode, dec8Word]) (execExt8_eq _) rfl]
  simp [dec8Responses, dec8Word, dec8Report]

/-! ### The statement -/

/-- Settles O56: `DEC7` and `DEC8` give their responses, or their fault, after any responses and from any source of the word. -/
theorem decodeMacrosFollowOtherTransactions : Obligations.DecodeMacrosFollowOtherTransactions := by
  intro e src r s hsrc
  have hdec7 (hr : r.toNat < 2 ^ 7) : runHost (dec7 r) [] s = .next (dec7Responses r) := runHost_dec7At s rfl hr
  have hdec7f (hr : 2 ^ 7 ≤ r.toNat) : runHost (dec7 r) [] s = .fault (.precondition .operandWidth) :=
    runHost_dec7At_faults s rfl hr
  have hdec8 : runHost (dec8 r) [] s = .next (dec8Responses r) := runHost_dec8At s rfl
  refine ⟨fun rs h => ?_, fun f h => ?_, fun rs h => ?_⟩
  · rcases Nat.lt_or_ge r.toNat (2 ^ 7) with hr | hr
    · obtain rfl : dec7Responses r = rs := by simpa [hdec7 hr] using h
      exact runHost_dec7At s hsrc hr
    · rw [hdec7f hr] at h
      cases h
  · rcases Nat.lt_or_ge r.toNat (2 ^ 7) with hr | hr
    · rw [hdec7 hr] at h
      cases h
    · obtain rfl : .precondition .operandWidth = f := by simpa [hdec7f hr] using h
      exact runHost_dec7At_faults s hsrc hr
  · obtain rfl : dec8Responses r = rs := by simpa [hdec8] using h
    exact runHost_dec8At s hsrc

end Sys2Proof.Machine
end

section
/-! `DEC7` and `DEC8` on a codeword with flips in it (`spec/30_encoding.md` R73, `spec/41_hamming74.md` R108,
`spec/42_hamming84_secded.md` R127): the syndrome of a received word is the one of its flips, so the reports are. -/

namespace Sys2Proof.Machine

/-! ### A codeword with flips in it -/

/-- `multiply` is linear (R93). -/
theorem multiply_xor (rows cols : Nat) (m : MatWord) (u v : Byte) :
    multiply rows cols m (u ^^^ v) = multiply rows cols m u ^^^ multiply rows cols m v := by
  refine BitVec.eq_of_getLsbD_eq fun r _ => ?_
  simp only [BitVec.getLsbD_xor, getLsbD_multiply, Bool.and_xor_distrib_left, xorSum_xor]

/-- A data vector is one of sixteen (R43). -/
theorem data_cases {P : Byte → Prop} (h : ∀ n, n < 16 → P (BitVec.ofNat 8 n)) {d : Byte} (hd : d.toNat < 16) : P d := by
  simpa using h d.toNat hd

theorem syndrome7_encode7 {d : Byte} (h : d.toNat < 16) : syndrome7 (encode7 d) = 0#8 :=
  data_cases (P := fun d => syndrome7 (encode7 d) = 0#8) (by decide) h

/-- The syndrome of a received word is the one of its flips (R93). -/
theorem syndrome7_flips {d : Byte} (h : d.toNat < 16) (e : Byte) : syndrome7 (encode7 d ^^^ e) = syndrome7 e := by
  have hlin : syndrome7 (encode7 d ^^^ e) = syndrome7 (encode7 d) ^^^ syndrome7 e := multiply_xor ..
  rw [hlin, syndrome7_encode7 h, BitVec.zero_xor]

theorem project_encode7 {d : Byte} (h : d.toNat < 16) : project dataIndices7 (encode7 d) = d :=
  data_cases (P := fun d => project dataIndices7 (encode7 d) = d) (by decide) h

/-- The syndrome of one flip, read as a number, is its position (R101, R108). -/
theorem syndromeValue_single7 {i : Nat} (h : i < 7) : syndromeValue (syndrome7 (single i)) = i + 1 := by
  revert i
  decide

theorem dec7Pos_encode7 {d : Byte} (h : d.toNat < 16) : dec7Pos (encode7 d) = 0#4 := by
  rw [dec7Pos, syndrome7_encode7 h]
  rfl

theorem dec7Pos_flip {d : Byte} {i : Nat} (h : d.toNat < 16) (hi : i < 7) :
    dec7Pos (flipBit (encode7 d) i) = toField (i + 1) := by
  rw [dec7Pos, flipBit, syndrome7_flips h, syndromeValue_single7 hi]

theorem dec7Word_encode7 {d : Byte} (h : d.toNat < 16) : dec7Word (encode7 d) = encode7 d := by
  rw [dec7Word, dec7Pos_encode7 h]
  rfl

/-- The reported position is the one that was flipped, and a second flip there undoes the first. -/
theorem dec7Word_flip {d : Byte} {i : Nat} (h : d.toNat < 16) (hi : i < 7) :
    dec7Word (flipBit (encode7 d) i) = encode7 d := by
  rw [dec7Word, dec7Pos_flip h hi, uint, toNat_toField (by omega), correct7, if_neg (by omega), Nat.add_sub_cancel,
    flipBit_flipBit]

/-- Settles O53: a codeword has syndrome 0, and one flip has its position as the syndrome. -/
theorem dec7RecoversTheData : Obligations.Dec7RecoversTheData := by
  intro d s hd
  have hc : (encode7 d).toNat < 2 ^ 7 := multiply_lt ..
  refine ⟨encode7 d, exec_enc7_of_lt hd s, ⟨_, _, _, _, runHost_dec7At s rfl hc, ?_⟩, fun i hi =>
    ⟨_, _, _, _, runHost_dec7At s rfl (flipBit_lt hc hi), ?_⟩⟩
  · simp only [dec7Word_encode7 hd, dec7Pos_encode7 hd, project_encode7 hd, and_self]
  · have hflip : encode7 d ^^^ 1#8 <<< i = flipBit (encode7 d) i := rfl
    simp only [hflip, dec7Word_flip hd hi, dec7Pos_flip hd hi, project_encode7 hd, toField, and_self]

/-! ### An extended codeword with flips in it -/

/-- The first term of a mod-2 sum taken apart. -/
theorem xorSum_succ_left (n : Nat) (e : Nat → Bool) : xorSum (n + 1) e = (e 0 ^^ xorSum n fun j => e (j + 1)) := by
  induction n with
  | zero => simp [xorSum]
  | succ n ih => rw [xorSum, ih, xorSum, Bool.xor_assoc]

/-- The overall parity bit stands first (R121). -/
theorem getLsbD_encode8_zero (d : Byte) : (encode8 d).getLsbD 0 = xorSum 7 (encode7 d).getLsbD :=
  getLsbD_packBits ..

/-- The standard codeword stands behind it (R121). -/
theorem getLsbD_encode8_succ (d : Byte) {i : Nat} (h : i < 7) : (encode8 d).getLsbD (i + 1) = (encode7 d).getLsbD i := by
  rw [encode8, getLsbD_packBits]
  simp [Config.codeBits8, show i + 1 < 8 by omega]

/-- The first three rows of H' are the rows of H shifted by one column (R120). -/
theorem entry_matHx_of_lt : ∀ k, k < 3 → entry matHx k 0 = false ∧ ∀ j, j < 7 → entry matHx k (j + 1) = entry matH k j := by
  decide

/-- The last row of H' is the overall parity (R120). -/
theorem entry_matHx_three : ∀ j, j < 8 → entry matHx 3 j = true := by
  decide

/-- An extended codeword has syndrome 0: in the first three rows because the standard codeword has, in the last because the
parity bit completes it to an even number of ones. -/
theorem syndrome8_encode8 {d : Byte} (h : d.toNat < 16) : syndrome8 (encode8 d) = 0#8 := by
  refine BitVec.eq_of_getLsbD_eq fun k hk => ?_
  have hstd : (syndrome7 (encode7 d)).getLsbD k = (0#8).getLsbD k := by rw [syndrome7_encode7 h]
  rw [BitVec.getLsbD_zero, syndrome8, getLsbD_multiply, Config.codeBits8, xorSum_succ_left]
  rcases Nat.lt_or_ge k 3 with hk3 | hk3
  · obtain ⟨hzero, hshift⟩ := entry_matHx_of_lt k hk3
    rw [xorSum_congr fun j hj => by rw [hshift j hj, getLsbD_encode8_succ d hj], hzero, Bool.false_and, Bool.false_xor]
    rw [syndrome7, getLsbD_multiply, BitVec.getLsbD_zero] at hstd
    have hsum : (xorSum 7 fun j => entry matH k j && (encode7 d).getLsbD j) = false := by
      simpa [hk, hk3, Config.codeBits7, Config.syndromeBits7] using hstd
    rw [hsum, Bool.and_false]
  · rcases Nat.lt_or_ge k 4 with hk4 | hk4
    · obtain rfl : k = 3 := by omega
      rw [xorSum_congr fun j hj => by
        rw [entry_matHx_three (j + 1) (by omega), getLsbD_encode8_succ d hj, Bool.true_and]]
      rw [entry_matHx_three 0 (by decide), Bool.true_and, getLsbD_encode8_zero, Bool.xor_self, Bool.and_false]
    · simp [Config.syndromeBits8, Nat.not_lt.mpr hk4]

/-- The syndrome of a received word is the one of its flips (R93). -/
theorem syndrome8_flips {d : Byte} (h : d.toNat < 16) (e : Byte) : syndrome8 (encode8 d ^^^ e) = syndrome8 e := by
  have hlin : syndrome8 (encode8 d ^^^ e) = syndrome8 (encode8 d) ^^^ syndrome8 e := multiply_xor ..
  rw [hlin, syndrome8_encode8 h, BitVec.zero_xor]

theorem project_encode8 {d : Byte} (h : d.toNat < 16) : project dataIndices8 (encode8 d) = d :=
  data_cases (P := fun d => project dataIndices8 (encode8 d) = d) (by decide) h

/-- The report of `CLS8` depends on the flips alone. -/
theorem dec8Report_flips {d : Byte} (h : d.toNat < 16) (e : Byte) : dec8Report (encode8 d ^^^ e) = dec8Report e := by
  rw [dec8Report, dec8Report, syndrome8_flips h]

theorem dec8Report_zero : dec8Report 0#8 = { etype := .none, pos := 0#4, cc := true } := by
  decide

theorem dec8Report_single {i : Nat} (h : i < 8) :
    dec8Report (single i) = { etype := .single, pos := toField i, cc := true } := by
  revert i
  decide

/-- Two flips leave the overall parity and not the syndrome (R127). -/
theorem dec8Report_of_popcount_eq_two {e : Byte} (h : popcount e = 2) :
    dec8Report e = { etype := .double, pos := 0#4, cc := false } := by
  revert e
  decide

theorem eq_zero_or_single_of_popcount_le_one {e : Byte} (h : popcount e ≤ 1) : e = 0#8 ∨ ∃ i, i < 8 ∧ e = single i := by
  revert e
  decide

/-- Without a `single` report the host passes -1, and `COR8` leaves the word as received (R73, R124). -/
theorem dec8Word_of_not_single {r : Byte} (h : (dec8Report r).etype.code ≠ ErrorType.single.code) : dec8Word r = r := by
  rw [dec8Word, dec8Idx, if_neg h]
  rfl

theorem sint4_toField {i : Nat} (h : i < 8) : sint4 (toField i) = i := by
  revert i
  decide

/-- After a `single` report `COR8` flips the reported bit. -/
theorem dec8Word_of_single {r : Byte} {i : Nat} (hi : i < 8)
    (h : dec8Report r = { etype := .single, pos := toField i, cc := true }) : dec8Word r = flipBit r i := by
  rw [dec8Word, dec8Idx, h, if_pos rfl, sint4_toField hi, correct8, if_neg (by omega), Int.toNat_natCast]

/-- After at most one flip the word is the codeword again. -/
theorem dec8Word_flips {d e : Byte} (hd : d.toNat < 16) (he : popcount e ≤ 1) : dec8Word (encode8 d ^^^ e) = encode8 d := by
  have hrep := dec8Report_flips hd e
  rcases eq_zero_or_single_of_popcount_le_one he with rfl | ⟨i, hi, rfl⟩
  · rw [dec8Report_zero] at hrep
    rw [dec8Word_of_not_single (by rw [hrep]; decide), BitVec.xor_zero]
  · rw [dec8Report_single hi] at hrep
    rw [dec8Word_of_single hi hrep, ← flipBit, flipBit_flipBit]

theorem dec8Report_cc {e : Byte} (he : popcount e ≤ 1) : (dec8Report e).cc = true := by
  rcases eq_zero_or_single_of_popcount_le_one he with rfl | ⟨i, hi, rfl⟩
  · rw [dec8Report_zero]
  · rw [dec8Report_single hi]

/-- Settles O54: the report depends on the flips alone, and the host flips the reported bit back or leaves the word. -/
theorem dec8RecoversOrDetects : Obligations.Dec8RecoversOrDetects := by
  intro d e s hd
  have hrep := dec8Report_flips hd e
  refine ⟨encode8 d, exec_enc8_of_lt hd s, _, _, _, _, runHost_dec8At s rfl, fun he => ?_, fun he => ?_⟩
  · simp only [hrep, dec8Word_flips hd he, project_encode8 hd, dec8Report_cc he, true_and]
    refine ⟨fun h0 => ?_, fun i hi h1 => ?_⟩
    · rw [h0, dec8Report_zero]
      rfl
    · rw [h1, ← single, dec8Report_single hi]
      exact ⟨rfl, rfl⟩
  · rw [dec8Report_of_popcount_eq_two he] at hrep
    have hword : dec8Word (encode8 d ^^^ e) = encode8 d ^^^ e := dec8Word_of_not_single (by rw [hrep]; decide)
    simp only [hrep, hword, and_true]
    rfl

end Sys2Proof.Machine
end

section
/-! The Matrix Engine (`spec/40_gf2_multiplier.md` R90 to R94): mod-2 sums, the product of a matrix and a vector, and what `GFMUL`
answers when its operands fit and when they do not; then the statements. -/

namespace Sys2Proof.Machine

/-! ### Mod-2 sums -/

/-- Each new term flips the parity if it is 1 and leaves it otherwise. -/
theorem xorSum_eq_parity (n : Nat) (e : Nat → Bool) :
    xorSum n e = decide (((List.range n).filter e).length % 2 = 1) := by
  induction n with
  | zero => rfl
  | succ n ih =>
    rw [xorSum, ih, List.range_succ, List.filter_append, List.length_append]
    cases he : e n with
    | false => simp [he]
    | true =>
      have hflip (k : Nat) : decide ((k + 1) % 2 = 1) = !decide (k % 2 = 1) := by
        rw [← decide_not, decide_eq_decide]
        omega
      rw [List.filter_cons_of_pos he, List.filter_nil, List.length_singleton, hflip, Bool.xor_true]

/-- A sum of which all terms but one are masked is that term. -/
theorem xorSum_and_eq_single {n c : Nat} (hc : c < n) (f : Nat → Bool) :
    (xorSum n fun j => f j && decide (j = c)) = f c := by
  induction n with
  | zero => cases hc
  | succ n ih =>
    rw [xorSum]
    rcases Nat.lt_succ_iff_lt_or_eq.mp hc with hlt | rfl
    · simp [ih hlt, Nat.ne_of_gt hlt]
    · have hbelow : (xorSum c fun j => f j && decide (j = c)) = xorSum c fun _ => false :=
        xorSum_congr fun j hj => by simp [Nat.ne_of_lt hj]
      simp [hbelow]

/-! ### The product -/

@[simp] theorem multiply_zero (rows cols : Nat) (m : MatWord) : multiply rows cols m 0#8 = 0#8 := by
  refine BitVec.eq_of_getLsbD_eq fun r _ => ?_
  simp [getLsbD_multiply]

theorem getLsbD_multiply_of_lt {rows r : Nat} (cols : Nat) (m : MatWord) (v : Byte) (hr : r < rows) (h8 : r < 8) :
    (multiply rows cols m v).getLsbD r = xorSum cols fun c => entry m r c && v.getLsbD c := by
  rw [getLsbD_multiply, decide_eq_true hr, decide_eq_true h8, Bool.true_and, Bool.true_and]

/-- A unit vector selects a column of the matrix (R93). -/
theorem getLsbD_multiply_single {rows cols c r : Nat} (m : MatWord) (hrows : rows ≤ 8) (hcols : cols ≤ 8) (hc : c < cols)
    (hr : r < rows) : (multiply rows cols m (single c)).getLsbD r = entry m r c := by
  rw [getLsbD_multiply_of_lt cols m _ hr (by omega), ← xorSum_and_eq_single hc (entry m r)]
  exact xorSum_congr fun j hj => by rw [getLsbD_single, decide_eq_true (show j < 8 by omega), Bool.true_and]

/-! ### The dimension checks -/

/-- A vector is too long exactly when one of its wires from the length on is 1 (R43). -/
theorem tooWide_iff (len : Nat) (v : Byte) : tooWide len v = true ↔ ∃ i, i < 8 ∧ len ≤ i ∧ v.getLsbD i = true := by
  rw [tooWide_eq, decide_eq_true_eq, ← Nat.not_lt, toNat_lt_two_pow_iff]
  constructor
  · intro h
    push Not at h
    obtain ⟨i, hlen, hi⟩ := h
    have hone : v.getLsbD i = true := by simpa using hi
    exact ⟨i, BitVec.lt_of_getLsbD hone, hlen, hone⟩
  · rintro ⟨i, _, hlen, hi⟩ h
    simp [h i hlen] at hi

theorem strayEntry_iff (rows cols : Nat) (m : MatWord) :
    strayEntry rows cols m = true ↔ ∃ r, r < 8 ∧ ∃ c, c < 8 ∧ (rows ≤ r ∨ cols ≤ c) ∧ m.getLsbD (8 * r + c) = true := by
  simp [strayEntry, entry]

/-- The checks of the meaning are the three cases that R160 lists for `DIM`. -/
theorem gfmulMismatch_iff_dimensionMismatch (rows cols : Nat) (a : Byte) (m : MatWord) :
    gfmulMismatch rows cols a m = true ↔ DimensionMismatch rows cols a m := by
  rw [gfmulMismatch, Bool.or_eq_true, Bool.or_eq_true, Bool.or_eq_true, badDim_iff, badDim_iff, tooWide_iff, strayEntry_iff,
    or_assoc, or_assoc]
  rfl

/-! ### What `GFMUL` answers -/

theorem exec_gfmul_of_not_mismatch {rows cols : Nibble} {a : Byte} {s : State}
    (h : ¬gfmulMismatch (uint rows) (uint cols) a s.mat = true) :
    exec (.gfmul rows cols a) s = .next (s.drive { y := multiply (uint rows) (uint cols) s.mat a }) :=
  (execGfmul_eq rows cols a s).trans (by rw [if_neg h])

/-- A well-formed `GFMUL` answers the product with every matrix of its dimensions. -/
theorem exec_gfmul_of_wellFormed {rows cols : Nibble} {a : Byte} {s : State} {m : MatWord} (hmat : s.mat = m)
    (hwf : (Instr.gfmul rows cols a).wellFormed = true) (hm : strayEntry (uint rows) (uint cols) m = false) :
    exec (.gfmul rows cols a) s = .next (s.drive { y := multiply (uint rows) (uint cols) m a }) := by
  subst hmat
  refine exec_gfmul_of_not_mismatch fun h => ?_
  rcases (gfmulMismatch_iff ..).mp h with hn | hs
  · exact hn hwf
  · rw [hm] at hs
    cases hs

/-- `GFMUL` with G on `mat` (R94). -/
theorem exec_gfmul_matG {a : Byte} {s : State} (ha : a.toNat < 2 ^ 4) (hmat : s.mat = matG) :
    exec (.gfmul 7#4 4#4 a) s = .next (s.drive { y := encode7 a }) :=
  exec_gfmul_of_wellFormed hmat (decide_eq_true ha) (by decide)

/-- `GFMUL` with H on `mat` (R94). -/
theorem exec_gfmul_matH {a : Byte} {s : State} (ha : a.toNat < 2 ^ 7) (hmat : s.mat = matH) :
    exec (.gfmul 3#4 7#4 a) s = .next (s.drive { y := syndrome7 a }) :=
  exec_gfmul_of_wellFormed hmat (decide_eq_true ha) (by decide)

/-- `GFMUL` with H' on `mat` (R94); its vector has all eight wires. -/
theorem exec_gfmul_matHx (a : Byte) {s : State} (hmat : s.mat = matHx) :
    exec (.gfmul 4#4 8#4 a) s = .next (s.drive { y := syndrome8 a }) :=
  exec_gfmul_of_wellFormed hmat (hasLength_eight a) (by decide)

/-! ### The statements -/

/-- Settles O22, by induction on the number of terms. -/
theorem modTwoSumIsParity : Obligations.ModTwoSumIsParity :=
  xorSum_eq_parity

/-- Settles O23: a sum of vectors gives the sum of the products, a unit vector masks all entries of a row but one, and a
codeword adds 0 to the syndrome. -/
theorem multiplyIsLinear : Obligations.MultiplyIsLinear :=
  ⟨fun rows cols m u v => ⟨multiply_xor rows cols m u v, multiply_zero rows cols m⟩,
    fun _ _ m _ _ hrows hcols hc hr => getLsbD_multiply_single m hrows hcols hc hr,
    fun _ e hd => syndrome7_flips hd e⟩

/-- Settles O24: the two hypotheses are the failure and the success of the dimension checks, and past them the response is the
product. -/
theorem gfmulResult : Obligations.GfmulResult := by
  refine ⟨fun idx rows cols a => ?decoding, fun rows cols a s hr1 hr8 hc1 hc8 hvec hmat => ?product,
    fun rows cols a s h => ?fault, fun s hcmd hmat => ?sample⟩
  case decoding => simp [decode]
  case product =>
    have hfits : ¬gfmulMismatch (uint rows) (uint cols) a s.mat = true := by
      rw [gfmulMismatch_iff_dimensionMismatch]
      rintro (hrows | hcols | ⟨i, hi, hlen, hone⟩ | ⟨r, hr, c, hc, hout, hone⟩)
      · exact hrows ⟨hr1, hr8⟩
      · exact hcols ⟨hc1, hc8⟩
      · simp [hvec i hlen hi] at hone
      · simp [hmat r c hr hc hout] at hone
    exact ⟨_, exec_gfmul_of_not_mismatch hfits,
      fun r hr => getLsbD_multiply_of_lt _ s.mat a hr (by omega), toNat_lt_two_pow_iff.mp (multiply_lt ..)⟩
  case fault =>
    refine exec_gfmul_of_mismatch ((gfmulMismatch_iff_dimensionMismatch ..).mpr ?_)
    rcases h with h | h | h | h | ⟨i, hlen, hi, hone⟩ | ⟨r, c, hr, hc, hout, hone⟩
    · exact .inl fun ⟨hmin, _⟩ => Nat.not_le.mpr h hmin
    · exact .inl fun ⟨_, hmax⟩ => Nat.not_le.mpr h hmax
    · exact .inr (.inl fun ⟨hmin, _⟩ => Nat.not_le.mpr h hmin)
    · exact .inr (.inl fun ⟨_, hmax⟩ => Nat.not_le.mpr h hmax)
    · exact .inr (.inr (.inl ⟨i, hi, hlen, hone⟩))
    · exact .inr (.inr (.inr ⟨r, hr, c, hc, hout, hone⟩))
  case sample =>
    obtain ⟨hdecode, _⟩ := specWordsDecode
    have hy : encode7 0x0D#8 = 0x66#8 := by decide
    have hstep : step s = .next (s.drive { y := encode7 0x0D#8 }) := by
      rw [step_eq_exec_decode, hcmd, hdecode]
      exact exec_gfmul_matG (by decide) (hmat.trans matG_eq.symm)
    rwa [hy] at hstep

/-- Settles O25: the three constants fit their dimensions, so `GFMUL` answers the product by which the codec operation is
defined. -/
theorem codecsAreGfmulInstances : Obligations.CodecsAreGfmulInstances := by
  refine ⟨fun a s t ha hmat => ?_, fun a s t ha hmat => ?_, fun a s t hmat => ?_⟩
  · exact ⟨encode7 a, exec_gfmul_matG ha (hmat.trans matG_eq.symm), exec_enc7_of_lt ha t,
      encode8 a, exec_enc8_of_lt ha t, getLsbD_encode8_zero a, fun _ hi => getLsbD_encode8_succ a hi⟩
  · exact ⟨syndrome7 a, exec_gfmul_matH ha (hmat.trans matH_eq.symm), exec_syn7_of_lt ha t⟩
  · exact ⟨syndrome8 a, exec_gfmul_matHx a (hmat.trans matHx_eq.symm), execSyn8_eq a t⟩

end Sys2Proof.Machine
end

section
/-! The Standard Codec (`spec/41_hamming74.md` R100 to R106): the two products written out, the syndrome as a number, what `COR7`
answers, and the result statements. -/

namespace Sys2Proof.Machine

/-! ### Vectors written out -/

/-- A bracketed list has its elements on the wires, and 0 beyond them (R6). -/
theorem getLsbD_vec (l : List Bool) {i : Nat} (hi : i < 8) : (vec l).getLsbD i = l.getD i false := by
  rw [vec, getLsbD_packBits, decide_eq_true hi, Bool.and_true]
  rcases Nat.lt_or_ge i l.length with h | h
  · rw [decide_eq_true h, Bool.true_and]
  · rw [decide_eq_false (Nat.not_lt.mpr h), Bool.false_and, List.getD_eq_default _ _ h]

theorem getLsbD_project (idxs : List Nat) (v : Byte) {i : Nat} (hi : i < 8) :
    (project idxs v).getLsbD i = (idxs.map v.getLsbD).getD i false :=
  getLsbD_vec _ hi

/-- A vector is the list of its elements. -/
theorem project_range {n : Nat} {v : Byte} (hv : v.toNat < 2 ^ n) : project (List.range n) v = v := by
  refine BitVec.eq_of_getLsbD_eq fun i hi => ?_
  rw [getLsbD_project _ _ hi]
  rcases Nat.lt_or_ge i n with h | h
  · simp [h]
  · simp [Nat.not_lt.mpr h, toNat_lt_two_pow_iff.mp hv i h]

/-- A product is the list of its rows (R90). -/
theorem multiply_eq_vec {rows cols : Nat} {m : MatWord} {v : Byte} {l : List Bool} (hl : l.length = rows)
    (h : ∀ r, r < rows → (xorSum cols fun c => entry m r c && v.getLsbD c) = l.getD r false) :
    multiply rows cols m v = vec l := by
  subst hl
  exact packBits_congr h

/-- The codeword written out (R102). -/
theorem encode7_eq_vec (d : Byte) :
    encode7 d = vec
      [d.getLsbD 0 ^^ d.getLsbD 1 ^^ d.getLsbD 3, d.getLsbD 0 ^^ d.getLsbD 2 ^^ d.getLsbD 3, d.getLsbD 0,
       d.getLsbD 1 ^^ d.getLsbD 2 ^^ d.getLsbD 3, d.getLsbD 1, d.getLsbD 2, d.getLsbD 3] := by
  refine multiply_eq_vec rfl fun r (hr : r < 7) => ?_
  rw [matG_eq]
  interval_cases r <;> simp [Config.dataBits, xorSum, entry]

/-- The syndrome written out (R103). -/
theorem syndrome7_eq_vec (r : Byte) :
    syndrome7 r = vec
      [r.getLsbD 0 ^^ r.getLsbD 2 ^^ r.getLsbD 4 ^^ r.getLsbD 6,
       r.getLsbD 1 ^^ r.getLsbD 2 ^^ r.getLsbD 5 ^^ r.getLsbD 6,
       r.getLsbD 3 ^^ r.getLsbD 4 ^^ r.getLsbD 5 ^^ r.getLsbD 6] := by
  refine multiply_eq_vec rfl fun k (hk : k < 3) => ?_
  rw [matH_eq]
  interval_cases k <;> simp [Config.codeBits7, xorSum, entry]

/-! ### The syndrome as a number -/

theorem bitValue_eq_toNat (b : Bool) : bitValue b = b.toNat := by
  cases b <;> rfl

/-- The weighted sum of the first three components is the unsigned value of those wires (R104). -/
theorem syndromeValue_eq_toNat_mod (z : Byte) : syndromeValue z = z.toNat % 2 ^ 3 := by
  simp only [syndromeValue, bitValue_eq_toNat, BitVec.getLsbD, Nat.toNat_testBit]
  omega

theorem syndromeValue_of_lt {z : Byte} (h : z.toNat < 2 ^ 3) : syndromeValue z = z.toNat := by
  rw [syndromeValue_eq_toNat_mod, Nat.mod_eq_of_lt h]

/-! ### What `COR7` answers -/

@[simp] theorem correct7_zero (r : Byte) : correct7 r 0 = r := rfl

theorem correct7_of_pos (r : Byte) {p : Nat} (hp : 1 ≤ p) : correct7 r p = flipBit r (p - 1) :=
  if_neg (Nat.ne_of_gt hp)

/-- A position from 1 to 7 is the index one lower (R105). -/
theorem exec_cor7_flip {r : Byte} {idx : Nibble} (hr : r.toNat < 2 ^ 7) (hpos : 1 ≤ idx.toNat) (hle : idx.toNat ≤ 7)
    (s : State) : exec (.cor7 idx r) s = .next (s.drive { y := flipBit r (idx.toNat - 1) }) := by
  rw [exec_cor7_of_lt hr hle, uint, correct7_of_pos r hpos]

/-- A position above 7 is outside the word (R105). -/
theorem exec_cor7_of_position {r : Byte} {idx : Nibble} (hr : r.toNat < 2 ^ 7) (hp : 7 < idx.toNat) (s : State) :
    exec (.cor7 idx r) s = .next (s.drive (Response.faulted .position)) :=
  (execCor7_eq idx r s).trans (by rw [if_neg (not_tooWide_of_lt hr), uint, if_pos hp])

/-! ### The statements -/

/-- A step on a word that is known to decode. -/
theorem step_of_decode {s : State} {w : CmdWord} {i : Instr} (hcmd : s.cmd = w) (hi : decode w = i) : step s = exec i s := by
  rw [step_eq_exec_decode, hcmd, hi]

/-- Settles O26, by evaluating the entries of the three constants. -/
theorem constantMatrices : Obligations.ConstantMatrices :=
  ⟨by decide, by decide, entry_matHx_of_lt, by decide, entry_matHx_three⟩

/-- Settles O27: the rows of G written out, and the width check. -/
theorem enc7Result : Obligations.Enc7Result := by
  refine ⟨fun idx b a => by simp [decode], ?product, fun d s h => ?fault, fun s hcmd => ?sample⟩
  case product =>
    rintro d _ s hd rfl
    rw [← encode7_eq_vec]
    exact ⟨rfl, exec_enc7_of_lt hd s⟩
  case fault => exact operandWidth_of_check (execEnc7_eq d s) (tooWide_of_le h)
  case sample =>
    have hy : encode7 0x0D#8 = 0x66#8 := by decide
    rw [step_of_decode hcmd (i := .enc7 0x0D#8) (by decide), exec_enc7_of_lt (by decide), hy]
    rfl

/-- Settles O28: the rows of H written out, and the width check. -/
theorem syn7Result : Obligations.Syn7Result := by
  refine ⟨fun idx b a => by simp [decode], ?product, fun r s h => ?fault, fun s hcmd => ?sample⟩
  case product =>
    rintro r _ s hr rfl
    rw [← syndrome7_eq_vec]
    exact ⟨rfl, exec_syn7_of_lt hr s⟩
  case fault => exact operandWidth_of_check (execSyn7_eq r s) (tooWide_of_le h)
  case sample =>
    have hy : syndrome7 0x76#8 = 0x05#8 := by decide
    rw [step_of_decode hcmd (i := .syn7 0x76#8) (by decide), exec_syn7_of_lt (by decide), hy]
    rfl

/-- Settles O29: the weighted sum is the unsigned value of a vector within its length. -/
theorem epos7Result : Obligations.Epos7Result := by
  refine ⟨fun idx b a => by simp [decode], fun a p s ha hp => ?value, fun a s h => ?fault, fun s hcmd => ?sample⟩
  case value =>
    have hsum : p.toNat = syndromeValue a := by simp only [hp, syndromeValue, bitValue_eq_toNat]
    have hfield : toField (syndromeValue a) = p := by rw [← hsum, toField, BitVec.ofNat_toNat, BitVec.setWidth_eq]
    refine ⟨hsum.trans (syndromeValue_of_lt ha), ?_⟩
    rw [exec_epos7_of_lt ha, hfield]
    rfl
  case fault => exact operandWidth_of_check (execEpos7_eq a s) (tooWide_of_le h)
  case sample =>
    have hpos : toField (syndromeValue 0x05#8) = 5#4 := by decide
    rw [step_of_decode hcmd (i := .epos7 0x05#8) (by decide), exec_epos7_of_lt (by decide), hpos]
    rfl

/-- Settles O30: the checks in their order, then one flip; a second flip at the same index restores the word. -/
theorem cor7Result : Obligations.Cor7Result := by
  refine ⟨fun idx b a => by simp [decode], fun r s hr => ?identity, fun idx r s hr hpos hle => ⟨?flip, ?restore⟩,
    fun idx r s h => ?width, fun idx r s hr hp => ?position, fun s hcmd => ?sample⟩
  case identity => exact exec_cor7_of_lt hr (by decide) s
  case flip => exact exec_cor7_flip hr hpos hle s
  case restore =>
    have hflip : (flipBit r (idx.toNat - 1)).toNat < 2 ^ 7 := flipBit_lt hr (by omega)
    have hagain := exec_cor7_flip hflip hpos hle s
    rwa [flipBit_flipBit] at hagain
  case width => exact operandWidth_of_check (execCor7_eq idx r s) (tooWide_of_le h)
  case position => exact exec_cor7_of_position hr hp s
  case sample =>
    have hy : flipBit 0x76#8 ((5#4).toNat - 1) = 0x66#8 := by decide
    rw [step_of_decode hcmd (i := .cor7 5#4 0x76#8) (by decide), exec_cor7_flip (by decide) (by decide) (by decide), hy]
    rfl

/-- Settles O31: the projection is defined on the four indices, and the width check. -/
theorem ext7Result : Obligations.Ext7Result := by
  refine ⟨fun idx b a => by simp [decode], fun c s hc => ?projection, fun c s h => ?fault, fun s hcmd => ?sample⟩
  case projection => exact exec_ext7_of_lt hc s
  case fault => exact operandWidth_of_check (execExt7_eq c s) (tooWide_of_le h)
  case sample =>
    have hy : project dataIndices7 0x66#8 = 0x0D#8 := by decide
    rw [step_of_decode hcmd (i := .ext7 0x66#8) (by decide), exec_ext7_of_lt (by decide), hy]
    rfl

end Sys2Proof.Machine
end

section
/-! Properties of the standard code (`spec/41_hamming74.md` R107 to R109). The code is perfect: the position that the syndrome
names leads from every word to a codeword, and so from two flips to a wrong one. -/

namespace Sys2Proof.Machine

/-! ### Codewords -/

theorem encode7_lt (d : Byte) : (encode7 d).toNat < 2 ^ 7 :=
  multiply_lt ..

theorem encode7_xor (d e : Byte) : encode7 (d ^^^ e) = encode7 d ^^^ encode7 e :=
  multiply_xor ..

theorem syndrome7_xor (u v : Byte) : syndrome7 (u ^^^ v) = syndrome7 u ^^^ syndrome7 v :=
  multiply_xor ..

/-- A word with syndrome 0 is a codeword: each row of H gives one parity bit from the data bits (R109). -/
theorem encode7_project_of_syndrome7_eq_zero {r : Byte} (hr : r.toNat < 2 ^ 7) (h : syndrome7 r = 0#8) :
    encode7 (project dataIndices7 r) = r := by
  have hrow (k : Nat) (hk : k < 8) := getLsbD_vec _ hk ▸ congrArg (BitVec.getLsbD · k) ((syndrome7_eq_vec r).symm.trans h)
  have h1 : r.getLsbD 0 = (r.getLsbD 2 ^^ r.getLsbD 4 ^^ r.getLsbD 6) := by simpa using hrow 0 (by decide)
  have h2 : r.getLsbD 1 = (r.getLsbD 2 ^^ r.getLsbD 5 ^^ r.getLsbD 6) := by simpa using hrow 1 (by decide)
  have h4 : r.getLsbD 3 = (r.getLsbD 4 ^^ r.getLsbD 5 ^^ r.getLsbD 6) := by simpa using hrow 2 (by decide)
  calc encode7 (project dataIndices7 r)
      = vec [r.getLsbD 2 ^^ r.getLsbD 4 ^^ r.getLsbD 6, r.getLsbD 2 ^^ r.getLsbD 5 ^^ r.getLsbD 6, r.getLsbD 2,
          r.getLsbD 4 ^^ r.getLsbD 5 ^^ r.getLsbD 6, r.getLsbD 4, r.getLsbD 5, r.getLsbD 6] := by
        rw [encode7_eq_vec]
        simp only [getLsbD_project, Nat.reduceLT]
        rfl
    _ = project (List.range 7) r := by
        rw [← h1, ← h2, ← h4]
        rfl
    _ = r := project_range hr

/-- `ENC7` gives such a word back from its data bits. -/
theorem exec_enc7_project {r : Byte} (h : encode7 (project dataIndices7 r) = r) (s : State) :
    exec (.enc7 (project dataIndices7 r)) s = .next (s.drive { y := r }) := by
  rw [exec_enc7_of_lt (project_lt dataIndices7 r), h]

/-! ### Reported positions -/

/-- `EPOS7` reads the sum of two syndromes as the XOR of their numbers. -/
theorem syndromeValue_xor (u v : Byte) : syndromeValue (u ^^^ v) = syndromeValue u ^^^ syndromeValue v := by
  simp only [syndromeValue_eq_toNat_mod, BitVec.toNat_xor, Nat.xor_mod_two_pow]

/-- No error is reported exactly for a syndrome of 0. -/
theorem syndrome7_eq_zero_iff {r : Byte} : syndrome7 r = 0#8 ↔ syndromeValue (syndrome7 r) = 0 := by
  rw [syndromeValue_of_lt (syndrome7_lt r), ← BitVec.toNat_inj]
  rfl

/-- A flip at a position adds the position to the reported one (R101). -/
theorem syndromeValue_flip (r : Byte) {i : Nat} (hi : i < 7) :
    syndromeValue (syndrome7 (flipBit r i)) = syndromeValue (syndrome7 r) ^^^ (i + 1) := by
  rw [flipBit, syndrome7_xor, syndromeValue_xor, syndromeValue_single7 hi]

/-- `COR7` is given the number of the syndrome, which fits the field. -/
theorem dec7Word_eq_correct7 (r : Byte) : dec7Word r = correct7 r (syndromeValue (syndrome7 r)) := by
  have hfield : uint (dec7Pos r) = syndromeValue (syndrome7 r) :=
    toNat_toField (Nat.lt_of_le_of_lt (syndromeValue_le _) (by decide))
  rw [dec7Word, hfield]

/-- The word that `COR7` makes of any word has syndrome 0: the reported position is added to itself. -/
theorem syndrome7_dec7Word (r : Byte) : syndrome7 (dec7Word r) = 0#8 := by
  rw [syndrome7_eq_zero_iff, dec7Word_eq_correct7]
  have hle := syndromeValue_le (syndrome7 r)
  rcases Nat.eq_zero_or_pos (syndromeValue (syndrome7 r)) with hzero | hpos
  · rw [hzero, correct7_zero, hzero]
  · rw [correct7_of_pos r hpos, syndromeValue_flip r (by omega), Nat.sub_add_cancel hpos, Nat.xor_self]

theorem dec7Word_lt {r : Byte} (hr : r.toNat < 2 ^ 7) : (dec7Word r).toNat < 2 ^ 7 :=
  correct7_lt hr (toNat_toField_syndromeValue_le _)

/-- Every word of seven bits is corrected to a codeword, whatever was sent (R109). -/
theorem encode7_project_dec7Word {r : Byte} (hr : r.toNat < 2 ^ 7) :
    encode7 (project dataIndices7 (dec7Word r)) = dec7Word r :=
  encode7_project_of_syndrome7_eq_zero (dec7Word_lt hr) (syndrome7_dec7Word r)

/-- The four operations of decoding, each on what the one before it answers (R108). -/
theorem exec_decoding7 {r : Byte} (hr : r.toNat < 2 ^ 7) (s : State) :
    exec (.syn7 r) s = .next (s.drive { y := syndrome7 r }) ∧
      exec (.epos7 (syndrome7 r)) s = .next (s.drive { pos := dec7Pos r }) ∧
      exec (.cor7 (dec7Pos r) r) s = .next (s.drive { y := dec7Word r }) ∧
      exec (.ext7 (dec7Word r)) s = .next (s.drive { y := project dataIndices7 (dec7Word r) }) :=
  ⟨exec_syn7_of_lt hr s, exec_epos7_of_lt (syndrome7_lt r) s, exec_cor7_of_lt hr (toNat_toField_syndromeValue_le _) s,
    exec_ext7_of_lt (dec7Word_lt hr) s⟩

/-! ### Two flips -/

/-- Two different positions name a third one (R109). -/
theorem xor_third_position {p q : Nat} (hp1 : 1 ≤ p) (hq1 : 1 ≤ q) (hpq : p ≠ q) :
    p ^^^ q ≠ 0 ∧ p ^^^ q ≠ p ∧ p ^^^ q ≠ q :=
  ⟨Nat.xor_ne_zero_iff.mpr hpq, mt xor_left_eq_self_iff.mp (Nat.ne_of_gt hq1),
    mt xor_right_eq_self_iff.mp (Nat.ne_of_gt hp1)⟩

/-- Two flips of a codeword have the XOR of their positions as the number of the syndrome (R109). -/
theorem syndromeValue_two_flips {d : Byte} (hd : d.toNat < 16) {p q : Nat} (hp1 : 1 ≤ p) (hp7 : p ≤ 7) (hq1 : 1 ≤ q)
    (hq7 : q ≤ 7) : syndromeValue (syndrome7 (flipBit (flipBit (encode7 d) (p - 1)) (q - 1))) = p ^^^ q := by
  rw [syndromeValue_flip _ (by omega), syndromeValue_flip _ (by omega), Nat.sub_add_cancel hp1, Nat.sub_add_cancel hq1,
    syndrome7_eq_zero_iff.mp (syndrome7_encode7 hd), Nat.zero_xor]

/-- A third flip elsewhere does not undo two. -/
theorem flipBit_two_flips_ne {v : Byte} {i j k : Nat} (hi : i < 8) (hij : i ≠ j) (hik : i ≠ k) :
    flipBit (flipBit (flipBit v i) j) k ≠ v := by
  intro h
  have hbit := congrArg (BitVec.getLsbD · i) h
  simp only [getLsbD_flipBit] at hbit
  simp [hi, hij, hik] at hbit

/-- Two flips are corrected to another codeword: the reported position is neither of theirs (R109). -/
theorem dec7Word_two_flips_ne {d : Byte} (hd : d.toNat < 16) {p q : Nat} (hp1 : 1 ≤ p) (hp7 : p ≤ 7) (hq1 : 1 ≤ q)
    (hq7 : q ≤ 7) (hpq : p ≠ q) : dec7Word (flipBit (flipBit (encode7 d) (p - 1)) (q - 1)) ≠ encode7 d := by
  obtain ⟨hzero, hneP, _⟩ := xor_third_position hp1 hq1 hpq
  rw [dec7Word_eq_correct7, syndromeValue_two_flips hd hp1 hp7 hq1 hq7, correct7_of_pos _ (Nat.pos_of_ne_zero hzero)]
  exact flipBit_two_flips_ne (by omega) (by omega) (by omega)

/-! ### Distance -/

/-- A nonzero codeword has at least three ones. -/
theorem three_le_popcount_encode7 {d : Byte} (hd : d.toNat < 16) : d ≠ 0#8 → 3 ≤ popcount (encode7 d) :=
  data_cases (P := fun d => d ≠ 0#8 → 3 ≤ popcount (encode7 d)) (by decide) hd

/-- Two codewords differ by a codeword, and so in at least 3 positions (R109). -/
theorem three_le_popcount_encode7_xor {d e : Byte} (hd : d.toNat < 16) (he : e.toNat < 16) (h : d ≠ e) :
    3 ≤ popcount (encode7 d ^^^ encode7 e) := by
  rw [← encode7_xor]
  refine three_le_popcount_encode7 ?_ (mt BitVec.xor_eq_zero_iff.mp h)
  rw [BitVec.toNat_xor]
  exact Nat.xor_lt_two_pow (n := 4) hd he

/-! ### What a completed answer says -/

/-- A response without a fault is past the check. -/
theorem response_of_check {o : Host.Outcome State Fault Refusal} {p : Prop} [Decidable p] {c : Cause} {r q : Response}
    {s : State} (ho : o = .next (s.drive (if p then Response.faulted c else r))) (hq : o = .next (s.drive q))
    (hfault : q.fault = false) : ¬p ∧ r = q := by
  have hrsp : (if p then Response.faulted c else r) = q := by
    injection ho.symm.trans hq with hstate
    exact congrArg State.rsp hstate
  by_cases hp : p
  · rw [if_pos hp] at hrsp
    rw [← hrsp] at hfault
    cases hfault
  · rw [if_neg hp] at hrsp
    exact ⟨hp, hrsp⟩

theorem exec_enc7_answer {d c : Byte} {s : State} (h : exec (.enc7 d) s = .next (s.drive { y := c })) :
    d.toNat < 16 ∧ encode7 d = c := by
  obtain ⟨hw, hr⟩ := response_of_check (execEnc7_eq d s) h rfl
  exact ⟨lt_of_not_tooWide hw, congrArg Response.y hr⟩

theorem exec_syn7_answer {r z : Byte} {s : State} (h : exec (.syn7 r) s = .next (s.drive { y := z })) :
    r.toNat < 2 ^ 7 ∧ syndrome7 r = z := by
  obtain ⟨hw, hr⟩ := response_of_check (execSyn7_eq r s) h rfl
  exact ⟨lt_of_not_tooWide hw, congrArg Response.y hr⟩

/-! ### The statements -/

/-- Settles O32: a codeword has syndrome 0, and its data bits stand in it. -/
theorem standardRoundTrip : Obligations.StandardRoundTrip := by
  intro d s hd
  have hsyn := exec_syn7_of_lt (encode7_lt d) s
  have hext := exec_ext7_of_lt (encode7_lt d) s
  rw [syndrome7_encode7 hd] at hsyn
  rw [project_encode7 hd] at hext
  exact ⟨encode7 d, exec_enc7_of_lt hd s, hsyn, hext⟩

/-- Settles O33: the reported position is the flipped one, and a second flip there undoes the first. -/
theorem standardCorrectsSingleErrors : Obligations.StandardCorrectsSingleErrors := by
  intro d i s hd hi
  obtain ⟨hsyn, hepos, hcor, hext⟩ := exec_decoding7 (flipBit_lt (encode7_lt d) hi) s
  rw [dec7Pos_flip hd hi] at hepos hcor
  rw [dec7Word_flip hd hi] at hcor hext
  rw [project_encode7 hd] at hext
  exact ⟨encode7 d, _, exec_enc7_of_lt hd s, hsyn, hepos, hcor, hext⟩

/-- Settles O34: two flips are reported at a third position and so corrected to another codeword; a word with syndrome 0 is the
codeword of its own data bits; and codewords differ by codewords. -/
theorem standardMiscorrectsDoubleErrors : Obligations.StandardMiscorrectsDoubleErrors := by
  refine ⟨fun d p q s hd hp1 hp7 hq1 hq7 hpq => ?miscorrected, fun r s hsyn => ?codeword,
    fun d e c c' s hde hc hc' => ?distance⟩
  case miscorrected =>
    obtain ⟨hzero, hneP, hneQ⟩ := xor_third_position hp1 hq1 hpq
    have hword : (flipBit (flipBit (encode7 d) (p - 1)) (q - 1)).toNat < 2 ^ 7 :=
      flipBit_lt (flipBit_lt (encode7_lt d) (by omega)) (by omega)
    obtain ⟨hsyn, hepos, hcor, hext⟩ := exec_decoding7 hword s
    rw [dec7Pos, syndromeValue_two_flips hd hp1 hp7 hq1 hq7] at hepos hcor
    have hcodeword := encode7_project_dec7Word hword
    have hother := dec7Word_two_flips_ne hd hp1 hp7 hq1 hq7 hpq
    refine ⟨hzero, hneP, hneQ, encode7 d, _, _, _, exec_enc7_of_lt hd s, hsyn, hepos, hcor, hext,
      exec_enc7_project hcodeword s, hother, fun hdata => ?_⟩
    rw [hdata] at hcodeword
    exact hother hcodeword.symm
  case codeword =>
    obtain ⟨hr, hzero⟩ := exec_syn7_answer hsyn
    exact ⟨_, exec_enc7_project (encode7_project_of_syndrome7_eq_zero hr hzero) s⟩
  case distance =>
    obtain ⟨hd, rfl⟩ := exec_enc7_answer hc
    obtain ⟨he, rfl⟩ := exec_enc7_answer hc'
    exact three_le_popcount_encode7_xor hd he hde

end Sys2Proof.Machine
end

section
/-! The Extended Codec (`spec/42_hamming84_secded.md` R120 to R125): the codeword and the syndrome written out, what `CLS8` and
`COR8` answer, and the result statements. -/

namespace Sys2Proof.Machine

/-! ### Vectors written out -/

/-- The codeword written out (R121). -/
theorem encode8_eq_vec (d : Byte) :
    encode8 d = vec
      [(encode7 d).getLsbD 0 ^^ (encode7 d).getLsbD 1 ^^ (encode7 d).getLsbD 2 ^^ (encode7 d).getLsbD 3 ^^
         (encode7 d).getLsbD 4 ^^ (encode7 d).getLsbD 5 ^^ (encode7 d).getLsbD 6,
       (encode7 d).getLsbD 0, (encode7 d).getLsbD 1, (encode7 d).getLsbD 2, (encode7 d).getLsbD 3,
       (encode7 d).getLsbD 4, (encode7 d).getLsbD 5, (encode7 d).getLsbD 6] := by
  refine BitVec.eq_of_getLsbD_eq fun i hi => ?_
  rw [getLsbD_vec _ hi]
  cases i with
  | zero =>
    rw [getLsbD_encode8_zero]
    simp [xorSum]
  | succ i =>
    have hi7 : i < 7 := by omega
    rw [getLsbD_encode8_succ d hi7]
    interval_cases i <;> rfl

/-- The syndrome written out (R122). -/
theorem syndrome8_eq_vec (r : Byte) :
    syndrome8 r = vec
      [r.getLsbD 1 ^^ r.getLsbD 3 ^^ r.getLsbD 5 ^^ r.getLsbD 7,
       r.getLsbD 2 ^^ r.getLsbD 3 ^^ r.getLsbD 6 ^^ r.getLsbD 7,
       r.getLsbD 4 ^^ r.getLsbD 5 ^^ r.getLsbD 6 ^^ r.getLsbD 7,
       r.getLsbD 0 ^^ r.getLsbD 1 ^^ r.getLsbD 2 ^^ r.getLsbD 3 ^^ r.getLsbD 4 ^^ r.getLsbD 5 ^^ r.getLsbD 6 ^^
         r.getLsbD 7] := by
  refine multiply_eq_vec rfl fun k (hk : k < 4) => ?_
  rw [matHx_eq]
  interval_cases k <;> simp [Config.codeBits8, xorSum, entry]

/-! ### What `CLS8` answers -/

/-- A failed overall parity is a `single` report, at position 0 too (R123). -/
theorem classify_of_parity {z : Byte} (h : z.getLsbD 3 = true) :
    classify z = { etype := .single, pos := toField (syndromeValue z), cc := true } := by
  rw [classify, h]
  by_cases hv : syndromeValue z = 0
  · rw [decide_eq_true hv, hv]
    rfl
  · rw [decide_eq_false hv]

theorem classify_of_zero {z : Byte} (h : z.getLsbD 3 = false) (hv : syndromeValue z = 0) :
    classify z = { etype := .none, pos := 0#4, cc := true } := by
  rw [classify, h, decide_eq_true hv]

theorem classify_of_even {z : Byte} (h : z.getLsbD 3 = false) (hv : syndromeValue z ≠ 0) :
    classify z = { etype := .double, pos := 0#4, cc := false } := by
  rw [classify, h, decide_eq_false hv]

theorem exec_cls8_single {z : Byte} (hz : z.toNat < 2 ^ 4) (h : z.getLsbD 3 = true) (s : State) :
    exec (.cls8 z) s = .next (s.drive { etype := 1#2, pos := toField (syndromeValue z), cc := true }) := by
  rw [exec_cls8_of_lt hz, classify_of_parity h, ErrorType.code]

theorem exec_cls8_none {z : Byte} (hz : z.toNat < 2 ^ 4) (h : z.getLsbD 3 = false) (hv : syndromeValue z = 0) (s : State) :
    exec (.cls8 z) s = .next (s.drive { etype := 0#2, pos := 0#4, cc := true }) := by
  rw [exec_cls8_of_lt hz, classify_of_zero h hv, ErrorType.code]

theorem exec_cls8_double {z : Byte} (hz : z.toNat < 2 ^ 4) (h : z.getLsbD 3 = false) (hv : syndromeValue z ≠ 0) (s : State) :
    exec (.cls8 z) s = .next (s.drive { etype := 2#2, pos := 0#4, cc := false }) := by
  rw [exec_cls8_of_lt hz, classify_of_even h hv, ErrorType.code]

/-! ### What `COR8` answers -/

theorem exec_cor8_of_neg {idx : Nibble} (h : idx.toInt < 0) (r : Byte) (s : State) :
    exec (.cor8 idx r) s = .next (s.drive { y := r }) :=
  (execCor8_eq idx r s).trans (by rw [correct8, sint4, if_pos h])

theorem exec_cor8_of_nonneg {idx : Nibble} (h : 0 ≤ idx.toInt) (r : Byte) (s : State) :
    exec (.cor8 idx r) s = .next (s.drive { y := flipBit r idx.toInt.toNat }) :=
  (execCor8_eq idx r s).trans (by rw [correct8, sint4, if_neg (Int.not_lt.mpr h)])

/-- A position within the word is not negative in its field (R65). -/
theorem exec_cor8_toField {i : Nat} (hi : i < 8) (r : Byte) (s : State) :
    exec (.cor8 (toField i) r) s = .next (s.drive { y := flipBit r i }) := by
  have hint : (toField i).toInt = i := sint4_toField hi
  rw [exec_cor8_of_nonneg (by omega), hint, Int.toNat_natCast]

/-! ### The statements -/

/-- Settles O35: the standard codeword behind the sum of its bits, and the width check. -/
theorem enc8Result : Obligations.Enc8Result := by
  refine ⟨fun idx b a => by simp [decode], fun d s hd => ?codeword, fun d s h => ?fault, fun s hcmd => ?sample⟩
  case codeword => exact ⟨encode7 d, _, _, rfl, rfl, encode8_eq_vec d, exec_enc8_of_lt hd s⟩
  case fault => exact operandWidth_of_check (execEnc8_eq d s) (tooWide_of_le h)
  case sample =>
    have hy : encode8 0x0F#8 = 0xFF#8 := by decide
    rw [step_of_decode hcmd (i := .enc8 0x0F#8) (by decide), exec_enc8_of_lt (by decide), hy]
    rfl

/-- Settles O36: the rows of H' written out; a received word has no wire to spare, so there is no check. -/
theorem syn8Result : Obligations.Syn8Result := by
  refine ⟨fun idx b a => by simp [decode], ?product, fun s hcmd => ?sample⟩
  case product =>
    rintro r _ s rfl
    rw [← syndrome8_eq_vec]
    exact ⟨rfl, execSyn8_eq r s⟩
  case sample =>
    have hy : syndrome8 0xDB#8 = 0x07#8 := by decide
    rw [step_of_decode hcmd (i := .syn8 0xDB#8) (by decide), exec, execSyn8_eq, hy]
    rfl

/-- Settles O37: the syndrome value is the unsigned value of the low three wires, which with the overall parity selects the row;
the two rows of `single` are one report, and 0 is its position in the first. -/
theorem cls8Result : Obligations.Cls8Result := by
  refine ⟨fun idx b a => by simp [decode], fun a s ha => ?table, fun a s h => ?fault, fun s hcmd => ?sample⟩
  case table =>
    rw [← show syndromeValue a = a.toNat % 8 from syndromeValue_eq_toNat_mod a]
    refine ⟨fun h hv => exec_cls8_none ha h hv s, fun h hv => ?_, fun h _ => exec_cls8_single ha h s,
      fun h hv => exec_cls8_double ha h hv s⟩
    have hpos := exec_cls8_single ha h s
    rwa [hv] at hpos
  case fault => exact operandWidth_of_check (execCls8_eq a s) (tooWide_of_le h)
  case sample =>
    rw [step_of_decode hcmd (i := .cls8 0x07#8) (by decide), exec_cls8_double (by decide) (by decide) (by decide)]
    rfl

/-- Settles O38: the sign of the position decides between the identity and one flip. -/
theorem cor8Result : Obligations.Cor8Result := by
  refine ⟨fun idx b a => by simp [decode],
    fun idx r s => ⟨fun h => exec_cor8_of_neg h r s, fun h => exec_cor8_of_nonneg h r s⟩,
    fun s hcmd => ?flip, fun s hcmd => ?identity⟩
  case flip =>
    have hy : flipBit 0xDF#8 (5#4).toInt.toNat = 0xFF#8 := by decide
    rw [step_of_decode hcmd (i := .cor8 5#4 0xDF#8) (by decide), exec_cor8_of_nonneg (by decide), hy]
    rfl
  case identity =>
    rw [step_of_decode hcmd (i := .cor8 15#4 0xDB#8) (by decide), exec_cor8_of_neg (by decide)]
    rfl

/-- Settles O39: the projection is defined on the four indices, and there is no check. -/
theorem ext8Result : Obligations.Ext8Result := by
  refine ⟨fun idx b a => by simp [decode], fun c s => execExt8_eq c s, fun s hcmd => ?_⟩
  have hy : project dataIndices8 0xCC#8 = 0x0D#8 := by decide
  rw [step_of_decode hcmd (i := .ext8 0xCC#8) (by decide), exec, execExt8_eq, hy]
  rfl

end Sys2Proof.Machine
end

section
/-! Properties of the extended code (`spec/42_hamming84_secded.md` R121, R126 to R128). The number in the first three components of
a syndrome is the XOR of the flipped positions and the last component is the parity of how many they are, so an odd number of
flips is corrected as if it were one. -/

namespace Sys2Proof.Machine

/-! ### The syndrome of a set of flips -/

theorem syndrome8_xor (u v : Byte) : syndrome8 (u ^^^ v) = syndrome8 u ^^^ syndrome8 v :=
  multiply_xor ..

theorem syndromeValue_lt (z : Byte) : syndromeValue z < 8 :=
  Nat.lt_succ_of_le (syndromeValue_le z)

/-- Component `k` of the extended syndrome is row `k` of H' times the word (R122). -/
theorem getLsbD_syndrome8 (r : Byte) {k : Nat} (hk : k < 4) :
    (syndrome8 r).getLsbD k = xorSum 8 fun i => entry matHx k i && r.getLsbD i :=
  getLsbD_multiply_of_lt 8 matHx r hk (by omega)

/-- The last component is the sum of all bits (R120). -/
theorem getLsbD_syndrome8_three (r : Byte) : (syndrome8 r).getLsbD 3 = xorSum 8 r.getLsbD := by
  rw [getLsbD_syndrome8 r (by decide)]
  exact xorSum_congr fun j hj => by rw [entry_matHx_three j hj, Bool.true_and]

theorem countTrue_eq_length_filter (n : Nat) (f : Nat → Bool) : countTrue n f = ((List.range n).filter f).length := by
  induction n with
  | zero => rfl
  | succ n ih =>
    rw [countTrue, ih, List.range_succ, List.filter_append, List.length_append]
    cases hf : f n with
    | false => simp [hf]
    | true => simp [hf]

/-- The last component is the parity of the number of ones. -/
theorem parity_syndrome8 (e : Byte) : (syndrome8 e).getLsbD 3 = decide (popcount e % 2 = 1) := by
  rw [getLsbD_syndrome8_three, xorSum_eq_parity, popcount, countTrue_eq_length_filter]

/-- Binary digit `k` of an XOR of numbers is the mod-2 sum of their digits. -/
theorem testBit_foldl_xor (n : Nat) (f : Nat → Bool) (k : Nat) :
    ((List.range n).foldl (fun acc i => if f i then acc ^^^ i else acc) 0).testBit k =
      xorSum n fun i => i.testBit k && f i := by
  induction n with
  | zero => simp [xorSum]
  | succ n ih =>
    rw [List.range_succ, List.foldl_append, xorSum, ← ih, List.foldl_cons, List.foldl_nil]
    cases f n with
    | false => simp
    | true => simp

/-- Column `i` of the first three rows of H' holds the binary digits of `i` (R120). -/
theorem entry_matHx_eq_testBit : ∀ k, k < 3 → ∀ i, i < 8 → entry matHx k i = i.testBit k := by
  decide

/-- The number in the first three components is the XOR of the positions of the ones. -/
theorem syndromeValue_syndrome8 (e : Byte) : syndromeValue (syndrome8 e) = xorOfPositions e := by
  refine Nat.eq_of_testBit_eq fun k => ?_
  rw [syndromeValue_eq_toNat_mod, Nat.testBit_mod_two_pow, xorOfPositions, testBit_foldl_xor]
  rcases Nat.lt_or_ge k 3 with hk | hk
  · rw [decide_eq_true hk, Bool.true_and, ← BitVec.getLsbD, getLsbD_syndrome8 e (by omega)]
    exact xorSum_congr fun i hi => by rw [entry_matHx_eq_testBit k hk i hi]
  · have hdigit (i : Nat) (hi : i < 8) : (i.testBit k && e.getLsbD i) = false := by
      have hpow : i < 2 ^ k := Nat.lt_of_lt_of_le hi (Nat.pow_le_pow_right (n := 2) (by decide) hk)
      rw [Nat.testBit_lt_two_pow hpow, Bool.false_and]
    rw [xorSum_congr hdigit, xorSum_false, decide_eq_false (Nat.not_lt.mpr hk), Bool.false_and]

/-! ### One flip more -/

theorem popcount_single {i : Nat} (hi : i < 8) : popcount (single i) = 1 := by
  revert i
  decide

theorem xorOfPositions_single {i : Nat} (hi : i < 8) : xorOfPositions (single i) = i := by
  revert i
  decide

/-- A flip changes the overall parity. -/
theorem parity_syndrome8_flip (r : Byte) {i : Nat} (hi : i < 8) :
    (syndrome8 (flipBit r i)).getLsbD 3 = !(syndrome8 r).getLsbD 3 := by
  rw [flipBit, syndrome8_xor, BitVec.getLsbD_xor, parity_syndrome8 (single i), popcount_single hi]
  exact Bool.xor_true _

/-- A flip at an index adds the index to the number of the syndrome. -/
theorem syndromeValue_syndrome8_flip (r : Byte) {i : Nat} (hi : i < 8) :
    syndromeValue (syndrome8 (flipBit r i)) = syndromeValue (syndrome8 r) ^^^ i := by
  rw [flipBit, syndrome8_xor, syndromeValue_xor, syndromeValue_syndrome8 (single i), xorOfPositions_single hi]

/-- One flip of a codeword fails the overall parity and names its index (R127). -/
theorem syndrome8_encode8_flip {d : Byte} (hd : d.toNat < 16) {i : Nat} (hi : i < 8) :
    (syndrome8 (flipBit (encode8 d) i)).getLsbD 3 = true ∧ syndromeValue (syndrome8 (flipBit (encode8 d) i)) = i := by
  rw [parity_syndrome8_flip _ hi, syndromeValue_syndrome8_flip _ hi, syndrome8_encode8 hd]
  exact ⟨rfl, Nat.zero_xor i⟩

/-- Two flips of a codeword keep the overall parity and name the XOR of their indices (R127). -/
theorem syndrome8_encode8_two_flips {d : Byte} (hd : d.toNat < 16) {i j : Nat} (hi : i < 8) (hj : j < 8) :
    (syndrome8 (flipBit (flipBit (encode8 d) i) j)).getLsbD 3 = false ∧
      syndromeValue (syndrome8 (flipBit (flipBit (encode8 d) i) j)) = i ^^^ j := by
  obtain ⟨hparity, hvalue⟩ := syndrome8_encode8_flip hd hi
  rw [parity_syndrome8_flip _ hj, syndromeValue_syndrome8_flip _ hj, hparity, hvalue]
  exact ⟨rfl, rfl⟩

/-! ### Codewords -/

/-- `p0` is the sum of the first three data bits: of the other terms of the seven sums each occurs twice (R121). -/
theorem getLsbD_encode8_zero_eq (d : Byte) :
    (encode8 d).getLsbD 0 = (d.getLsbD 0 ^^ d.getLsbD 1 ^^ d.getLsbD 2) := by
  have hsum : ∀ d0 d1 d2 d3 : Bool, ((d0 ^^ d1 ^^ d3) ^^ (d0 ^^ d2 ^^ d3) ^^ d0 ^^ (d1 ^^ d2 ^^ d3) ^^ d1 ^^ d2 ^^ d3) =
      (d0 ^^ d1 ^^ d2) := by decide
  rw [← hsum _ _ _ (d.getLsbD 3), encode8_eq_vec, encode7_eq_vec]
  simp only [getLsbD_vec, Nat.reduceLT]
  rfl

/-- The weights of the code are 0, 4 and 8 (R121). -/
theorem popcount_encode8 {d : Byte} (hd : d.toNat < 16) :
    popcount (encode8 d) = 0 ∨ popcount (encode8 d) = 4 ∨ popcount (encode8 d) = 8 :=
  data_cases (P := fun d => popcount (encode8 d) = 0 ∨ popcount (encode8 d) = 4 ∨ popcount (encode8 d) = 8) (by decide) hd

/-- Behind the first bit the two codes give a word the same number (R120). -/
theorem syndromeValue_syndrome8_eq_syndrome7 (r : Byte) : syndromeValue (syndrome8 r) = syndromeValue (syndrome7 (r >>> 1)) := by
  have hbit (k : Nat) (hk : k < 3) : (syndrome8 r).getLsbD k = (syndrome7 (r >>> 1)).getLsbD k := by
    obtain ⟨hzero, hshift⟩ := entry_matHx_of_lt k hk
    have hrow : (syndrome7 (r >>> 1)).getLsbD k = xorSum 7 fun j => entry matH k j && (r >>> 1).getLsbD j :=
      getLsbD_multiply_of_lt 7 matH (r >>> 1) hk (by omega)
    rw [getLsbD_syndrome8 r (by omega), hrow, xorSum_succ_left, hzero, Bool.false_and, Bool.false_xor]
    exact xorSum_congr fun j hj => by rw [hshift j hj, BitVec.getLsbD_ushiftRight, Nat.add_comm]
  rw [syndromeValue, hbit 0 (by decide), hbit 1 (by decide), hbit 2 (by decide), ← syndromeValue]

/-- A word whose overall parity holds and whose number is 0 is a codeword: behind its first bit stands a standard codeword, and
the first bit is the sum of the others (R128). -/
theorem encode8_project {r : Byte} (hparity : (syndrome8 r).getLsbD 3 = false) (hvalue : syndromeValue (syndrome8 r) = 0) :
    encode8 (project dataIndices8 r) = r := by
  have hlt : (r >>> 1).toNat < 2 ^ 7 := by
    rw [BitVec.toNat_ushiftRight, Nat.shiftRight_eq_div_pow]
    omega
  have hsyn : syndrome7 (r >>> 1) = 0#8 := by rw [syndrome7_eq_zero_iff, ← syndromeValue_syndrome8_eq_syndrome7, hvalue]
  have hdata : project dataIndices7 (r >>> 1) = project dataIndices8 r := by
    simp [project, dataIndices7, dataIndices8]
  have hstd : encode7 (project dataIndices8 r) = r >>> 1 := hdata ▸ encode7_project_of_syndrome7_eq_zero hlt hsyn
  refine BitVec.eq_of_getLsbD_eq fun i hi => ?_
  cases i with
  | zero =>
    rw [getLsbD_syndrome8_three, xorSum_succ_left] at hparity
    rw [getLsbD_encode8_zero, hstd, xorSum_congr fun j _ => by rw [BitVec.getLsbD_ushiftRight, Nat.add_comm]]
    exact (bne_eq_false_iff_eq.mp hparity).symm
  | succ i => rw [getLsbD_encode8_succ _ (by omega), hstd, BitVec.getLsbD_ushiftRight, Nat.add_comm]

/-- `ENC8` gives such a word back from its data bits. -/
theorem exec_enc8_project {r : Byte} (hparity : (syndrome8 r).getLsbD 3 = false)
    (hvalue : syndromeValue (syndrome8 r) = 0) (s : State) :
    exec (.enc8 (project dataIndices8 r)) s = .next (s.drive { y := r }) := by
  rw [exec_enc8_of_lt (project_lt dataIndices8 r), encode8_project hparity hvalue]

/-! ### Three or more flips -/

/-- After an odd number of flips the "correction" is one flip more, at the number of the syndrome: it leads to a codeword (R128). -/
theorem exec_enc8_project_corrected {r : Byte} (hparity : (syndrome8 r).getLsbD 3 = true) (s : State) :
    exec (.enc8 (project dataIndices8 (flipBit r (syndromeValue (syndrome8 r))))) s =
      .next (s.drive { y := flipBit r (syndromeValue (syndrome8 r)) }) := by
  have hlt := syndromeValue_lt (syndrome8 r)
  refine exec_enc8_project ?_ ?_ s
  · rw [parity_syndrome8_flip r hlt, hparity, Bool.not_true]
  · rw [syndromeValue_syndrome8_flip r hlt, Nat.xor_self]

/-- Three or more flips do not give the word back. -/
theorem xor_ne_of_three_le_popcount {c e : Byte} (he : 3 ≤ popcount e) : c ^^^ e ≠ c := by
  intro h
  obtain rfl : e = 0#8 := by simpa using h
  exact absurd he (by decide)

/-- One flip more does not undo them. -/
theorem flipBit_xor_ne_of_three_le_popcount {c e : Byte} (he : 3 ≤ popcount e) {i : Nat} (hi : i < 8) :
    flipBit (c ^^^ e) i ≠ c := by
  intro h
  rw [flipBit, BitVec.xor_assoc] at h
  have hzero : e ^^^ single i = 0#8 := by simpa using h
  rw [BitVec.xor_eq_zero_iff.mp hzero, popcount_single hi] at he
  omega

/-! ### The statements -/

/-- Settles O40: the sum of the parity bits, and the sixteen weights. -/
theorem extendedCodewordWeight : Obligations.ExtendedCodewordWeight :=
  fun d s hd => ⟨encode8 d, exec_enc8_of_lt hd s, getLsbD_encode8_zero_eq d, popcount_encode8 hd⟩

/-- Settles O41: a codeword has syndrome 0, and its data bits stand in it. -/
theorem extendedRoundTrip : Obligations.ExtendedRoundTrip := by
  intro d s hd
  have hsyn := execSyn8_eq (encode8 d) s
  have hext := execExt8_eq (encode8 d) s
  rw [syndrome8_encode8 hd] at hsyn
  rw [project_encode8 hd] at hext
  exact ⟨encode8 d, exec_enc8_of_lt hd s, hsyn, hext⟩

/-- Settles O42: each flip changes the overall parity and adds its index to the number of the syndrome; one flip is so named by
its index and undone by a second flip there, and two different indices do not cancel. -/
theorem extendedCorrectsOneDetectsTwo : Obligations.ExtendedCorrectsOneDetectsTwo := by
  refine ⟨fun d i s hd hi => ?single, fun d i j s hd hi hj hij => ?double⟩
  case single =>
    obtain ⟨hparity, hvalue⟩ := syndrome8_encode8_flip hd hi
    have hcls := exec_cls8_single (syndrome8_lt _) hparity s
    have hcor := exec_cor8_toField hi (flipBit (encode8 d) i) s
    have hext := execExt8_eq (encode8 d) s
    rw [hvalue] at hcls
    rw [flipBit_flipBit] at hcor
    rw [project_encode8 hd] at hext
    exact ⟨encode8 d, _, exec_enc8_of_lt hd s, execSyn8_eq _ s, hcls, hcor, hext⟩
  case double =>
    obtain ⟨hparity, hvalue⟩ := syndrome8_encode8_two_flips hd hi hj
    have hne : i ^^^ j ≠ 0 := Nat.xor_ne_zero_iff.mpr hij
    exact ⟨encode8 d, _, exec_enc8_of_lt hd s, execSyn8_eq _ s, hparity, (syndromeValue_eq_toNat_mod _).symm.trans hvalue, hne,
      exec_cls8_double (syndrome8_lt _) hparity (hvalue ▸ hne) s⟩

/-- Settles O43: the syndrome is the parity of the number of flips and the XOR of their positions; an odd number is taken for one
flip more and so leads to a wrong codeword, and an even number with XOR 0 has led to one already. -/
theorem extendedBeyondTwoFlips : Obligations.ExtendedBeyondTwoFlips := by
  intro d e s hd he
  have hsyn := syndrome8_flips hd e
  have hparity := parity_syndrome8 e
  have hvalue := syndromeValue_syndrome8 e
  have hz := syndrome8_lt e
  have hholds (heven : popcount e % 2 = 0) : (syndrome8 e).getLsbD 3 = false := hparity.trans (decide_eq_false (by omega))
  refine ⟨encode8 d, syndrome8 e, exec_enc8_of_lt hd s, hsyn ▸ execSyn8_eq (encode8 d ^^^ e) s, hparity,
    (syndromeValue_eq_toNat_mod _).symm.trans hvalue, fun hodd => ?odd, fun heven hxor => ?double, fun heven hxor => ?none⟩
  case odd =>
    have hlt : xorOfPositions e < 8 := hvalue ▸ syndromeValue_lt _
    have hfail : (syndrome8 e).getLsbD 3 = true := hparity.trans (decide_eq_true hodd)
    have hcls := exec_cls8_single hz hfail s
    have henc := exec_enc8_project_corrected (hsyn.symm ▸ hfail) s
    rw [hvalue] at hcls
    rw [hsyn, hvalue] at henc
    exact ⟨hcls, _, _, flipBit_xor_ne_of_three_le_popcount he hlt, exec_cor8_toField hlt _ s, henc⟩
  case double => exact exec_cls8_double hz (hholds heven) (hvalue ▸ hxor) s
  case none =>
    have hzero : syndromeValue (syndrome8 e) = 0 := hvalue.trans hxor
    have hreport := exec_cls8_none hz (hholds heven) hzero s
    rw [← hsyn] at hholds hzero
    have hcodeword := encode8_project (hholds heven) hzero
    refine ⟨hreport, project dataIndices8 (encode8 d ^^^ e), fun hdata => ?_, exec_enc8_project (hholds heven) hzero s⟩
    exact xor_ne_of_three_le_popcount he (hcodeword.symm.trans (congrArg encode8 hdata))

end Sys2Proof.Machine
end

section
/-! The Error Injector (`spec/43_error_injector.md` R141 to R145): how a flip changes the number of ones, the pairs of draws,
what the four operations answer, and the statements. -/

namespace Sys2Proof.Machine

/-! ### The number of ones -/

theorem countTrue_congr {n : Nat} {f g : Nat → Bool} (h : ∀ j, j < n → f j = g j) : countTrue n f = countTrue n g := by
  induction n with
  | zero => rfl
  | succ n ih => rw [countTrue, countTrue, ih fun j hj => h j (by omega), h n (by omega)]

/-- One more at an index within the range is one more in all. -/
theorem countTrue_eq_succ {n i : Nat} {f g : Nat → Bool} (hi : i < n) (hf : f i = false) (hg : g i = true)
    (h : ∀ j, j ≠ i → g j = f j) : countTrue n g = countTrue n f + 1 := by
  induction n with
  | zero => omega
  | succ n ih =>
    rw [countTrue, countTrue]
    by_cases hin : i = n
    · subst hin
      rw [hf, hg, countTrue_congr fun j hj => h j (by omega)]
      simp
    · rw [ih (by omega), h n (Ne.symm hin), Nat.add_right_comm]

/-- Indices with nothing on them do not count. -/
theorem countTrue_eq_of_le {n m : Nat} (hnm : n ≤ m) {f g : Nat → Bool} (h : ∀ j, j < n → g j = f j)
    (hzero : ∀ j, n ≤ j → g j = false) : countTrue m g = countTrue n f := by
  induction hnm with
  | refl => exact countTrue_congr h
  | step hle ih =>
    rw [countTrue, ih, hzero _ hle]
    rfl

theorem popcount_packBits {n : Nat} (hn : n ≤ 8) (f : Nat → Bool) : popcount (packBits n f) = countTrue n f := by
  refine countTrue_eq_of_le hn (fun j hj => ?_) fun j hj => ?_
  · rw [getLsbD_packBits, decide_eq_true hj, decide_eq_true (Nat.lt_of_lt_of_le hj hn), Bool.true_and, Bool.true_and]
  · rw [getLsbD_packBits, decide_eq_false (Nat.not_lt.mpr hj), Bool.false_and, Bool.false_and]

theorem popcount_eq_zero_iff {v : Byte} : popcount v = 0 ↔ v = 0#8 := by
  constructor
  · intro h
    rw [popcount, countTrue_eq_length_filter, List.length_eq_zero_iff, List.filter_eq_nil_iff] at h
    exact BitVec.eq_of_getLsbD_eq fun i hi => by simpa using h i (List.mem_range.mpr hi)
  · rintro rfl
    rfl

theorem popcount_flipBit_of_clear {v : Byte} {i : Nat} (hi : i < 8) (h : v.getLsbD i = false) :
    popcount (flipBit v i) = popcount v + 1 := by
  refine countTrue_eq_succ hi h ?_ fun j hj => ?_
  · simp [getLsbD_flipBit, h, hi]
  · simp [getLsbD_flipBit, hj]

/-- A flip of a one is undone by a flip of a zero. -/
theorem popcount_flipBit_of_set {v : Byte} {i : Nat} (hi : i < 8) (h : v.getLsbD i = true) :
    popcount v = popcount (flipBit v i) + 1 := by
  have hclear : (flipBit v i).getLsbD i = false := by
    rw [getLsbD_flipBit, h, decide_eq_true hi, decide_eq_true rfl]
    rfl
  rw [← popcount_flipBit_of_clear hi hclear, flipBit_flipBit]

/-- A flip of the word is a flip of its difference from another. -/
theorem flipBit_xor (v w : Byte) (i : Nat) : flipBit v i ^^^ w = flipBit (v ^^^ w) i := by
  rw [flipBit, flipBit, BitVec.xor_assoc, BitVec.xor_comm (single i), ← BitVec.xor_assoc]

/-- Two flips at different indices change two bits. -/
theorem popcount_two_flips_xor {p q : Nat} (v : Byte) (hp : p < 8) (hq : q < 8) (hqp : q ≠ p) :
    popcount (flipBit (flipBit v p) q ^^^ v) = 2 := by
  have hclear : (flipBit 0#8 p).getLsbD q = false := by simp [getLsbD_flipBit, hqp]
  rw [flipBit_xor, flipBit_xor, BitVec.xor_self, popcount_flipBit_of_clear hq hclear,
    popcount_flipBit_of_clear hp BitVec.getLsbD_zero, popcount_eq_zero_iff.mpr rfl]

/-! ### Pairs of draws -/

/-- The two draws that select `p` and then `q` (R142). -/
def pairDraw (p q : Nat) : RndWord := BitVec.ofNat 6 (8 * (if q < p then q else q - 1) + p)

theorem toNat_pairDraw {p q : Nat} (hp : p ≤ 7) (hq : q ≤ 7) :
    (pairDraw p q).toNat = 8 * (if q < p then q else q - 1) + p := by
  rw [pairDraw, BitVec.toNat_ofNat, Nat.mod_eq_of_lt]
  split <;> omega

/-- Exactly these draws are legal and select the two positions: `secondPosition` counts the positions other than `p`. -/
theorem draws_select_iff {p q : Nat} (hp : p ≤ 7) (hq : q ≤ 7) (hpq : p ≠ q) (rnd : RndWord) :
    (draw1 rnd ≤ 6 ∧ draw0 rnd = p ∧ secondPosition (draw0 rnd) (draw1 rnd) = q) ↔ rnd = pairDraw p q := by
  rw [← BitVec.toNat_inj, toNat_pairDraw hp hq, draw0_eq, draw1_eq, secondPosition]
  have hrnd := rnd.isLt
  split <;> split <;> omega

theorem toField_eq_iff {n : Nat} (hn : n < 16) {p : Nibble} : toField n = p ↔ n = p.toNat := by
  rw [← BitVec.toNat_inj, toNat_toField hn]

/-! ### What `INJ7` and `INJ8` answer -/

theorem exec_inj7_of_le {a : Byte} {s : State} (ha : a.toNat < 2 ^ 7) (hd : draw0 s.rnd ≤ 6) :
    exec (.inj7 a) s = .next (s.drive
      { y := flipBit a (draw0 s.rnd), pos := toField (draw0 s.rnd + 1), mask := single (draw0 s.rnd), cnt := 1#4 }) :=
  (execInj7_eq a s).trans (by rw [if_neg (not_tooWide_of_lt ha), if_neg (Nat.not_lt.mpr hd)])

theorem exec_inj7_of_range {a : Byte} {s : State} (ha : a.toNat < 2 ^ 7) (hd : 6 < draw0 s.rnd) :
    exec (.inj7 a) s = .next (s.drive (Response.faulted .rngRange)) :=
  (execInj7_eq a s).trans (by rw [if_neg (not_tooWide_of_lt ha), if_pos hd])

theorem exec_inj8_two_of_le (a : Byte) {s : State} (hd : draw1 s.rnd ≤ 6) :
    exec (.inj8 2#4 a) s = .next (s.drive (inj8Two a (draw0 s.rnd) (secondPosition (draw0 s.rnd) (draw1 s.rnd)))) :=
  (exec_inj8_two a s).trans (by rw [if_neg (Nat.not_lt.mpr hd)])

theorem exec_inj8_two_of_range (a : Byte) {s : State} (hd : 6 < draw1 s.rnd) :
    exec (.inj8 2#4 a) s = .next (s.drive (Response.faulted .rngRange)) :=
  (exec_inj8_two a s).trans (by rw [if_pos hd])

/-- The positions that a legal draw reports. -/
theorem exec_inj8_two_reports_iff (a : Byte) {s : State} (p q : Nibble) (hd : draw1 s.rnd ≤ 6) :
    (∃ r, exec (.inj8 2#4 a) s = .next (s.drive r) ∧ r.pos = p ∧ r.pos2 = q) ↔
      draw0 s.rnd = p.toNat ∧ secondPosition (draw0 s.rnd) (draw1 s.rnd) = q.toNat := by
  have hp := draw0_lt s.rnd
  have hq := secondPosition_le (draw0 s.rnd) hd
  rw [← toField_eq_iff (by omega), ← toField_eq_iff (by omega), exec_inj8_two_of_le a hd]
  constructor
  · rintro ⟨r, hr, hpos, hpos2⟩
    injection hr with hstate
    obtain rfl := congrArg State.rsp hstate
    exact ⟨hpos, hpos2⟩
  · intro hpositions
    exact ⟨_, rfl, hpositions⟩

/-! ### What `FLIP7` and `FLIP8` answer -/

theorem not_tooWide_or_of_lt {n : Nat} {a b : Byte} (ha : a.toNat < 2 ^ n) (hb : b.toNat < 2 ^ n) :
    ¬(tooWide n a || tooWide n b) = true :=
  mt Bool.or_eq_true_iff.mp (not_or.mpr ⟨not_tooWide_of_lt ha, not_tooWide_of_lt hb⟩)

theorem exec_flip7_of_le {idx : Nibble} {b a : Byte} (ha : a.toNat < 2 ^ 7) (hb : b.toNat < 2 ^ 7) (hi : idx.toNat ≤ 6)
    (s : State) : exec (.flip7 idx b a) s = .next (s.drive (flipResponse 7 1 a b idx.toNat)) :=
  (execFlip7_eq idx b a s).trans (by rw [if_neg (not_tooWide_or_of_lt ha hb), uint, if_neg (Nat.not_lt.mpr hi)])

theorem exec_flip7_of_position {idx : Nibble} {b a : Byte} (ha : a.toNat < 2 ^ 7) (hb : b.toNat < 2 ^ 7)
    (hi : 6 < idx.toNat) (s : State) : exec (.flip7 idx b a) s = .next (s.drive (Response.faulted .position)) :=
  (execFlip7_eq idx b a s).trans (by rw [if_neg (not_tooWide_or_of_lt ha hb), uint, if_pos hi])

theorem exec_flip8_of_le {idx : Nibble} (hi : idx.toNat ≤ 7) (b a : Byte) (s : State) :
    exec (.flip8 idx b a) s = .next (s.drive (flipResponse 8 2 a b idx.toNat)) :=
  (execFlip8_eq idx b a s).trans (by rw [uint, if_neg (Nat.not_lt.mpr hi)])

theorem exec_flip8_of_position {idx : Nibble} (hi : 7 < idx.toNat) (b a : Byte) (s : State) :
    exec (.flip8 idx b a) s = .next (s.drive (Response.faulted .position)) :=
  (execFlip8_eq idx b a s).trans (by rw [uint, if_pos hi])

/-- A step on a word that decodes to a legal `FLIP7`. -/
theorem step_flip7 {s : State} {w : CmdWord} {r : Response} (hcmd : s.cmd = w) (idx : Nibble) (b a : Byte)
    (hw : decode w = .flip7 idx b a) (hlegal : a.toNat < 2 ^ 7 ∧ b.toNat < 2 ^ 7 ∧ idx.toNat ≤ 6)
    (hr : flipResponse 7 1 a b idx.toNat = r) : step s = .next (s.drive r) := by
  obtain ⟨ha, hb, hi⟩ := hlegal
  rw [step_of_decode hcmd hw, exec_flip7_of_le ha hb hi, hr]

/-- A step on a word that decodes to a legal `FLIP8`. -/
theorem step_flip8 {s : State} {w : CmdWord} {r : Response} (hcmd : s.cmd = w) (idx : Nibble) (b a : Byte)
    (hw : decode w = .flip8 idx b a) (hi : idx.toNat ≤ 7) (hr : flipResponse 8 2 a b idx.toNat = r) :
    step s = .next (s.drive r) := by
  rw [step_of_decode hcmd hw, exec_flip8_of_le hi, hr]

/-! ### The manual flip -/

/-- The size of the error set is the number of places where the words differ (R143). -/
theorem popcount_errorSet {n : Nat} (hn : n ≤ 8) (r o : Byte) :
    popcount (errorSet n r o) = ((List.range n).filter fun j => r.getLsbD j != o.getLsbD j).length := by
  rw [errorSet, popcount_packBits hn, countTrue_eq_length_filter]

theorem flipAccepted_iff {n i : Nat} (cap : Nat) (r o : Byte) (hn : n ≤ 8) (hi : i < n) :
    flipAccepted n cap r o i = true ↔ r.getLsbD i ≠ o.getLsbD i ∨
      ((List.range n).filter fun j => r.getLsbD j != o.getLsbD j).length < cap := by
  rw [flipAccepted, popcount_errorSet hn, getLsbD_errorSet, decide_eq_true hi, decide_eq_true (Nat.lt_of_lt_of_le hi hn),
    Bool.true_and, Bool.true_and, Bool.or_eq_true_iff, bne_iff_ne, decide_eq_true_iff]

/-- The response of the model is the manual flip of R143. -/
theorem manualFlip_flipResponse {n i : Nat} (cap : Nat) (a b : Byte) (hn : n ≤ 8) (hi : i < n) :
    ManualFlip n cap a b i (flipResponse n cap a b i) := by
  refine ⟨rfl, flipAccepted_iff cap a b hn hi, rfl, fun j hj => ?mask, ?cnt⟩
  case mask =>
    rw [flipResponse, getLsbD_errorSet, decide_eq_true hj, Bool.and_true]
  case cnt =>
    exact (toNat_toField (Nat.lt_of_le_of_lt (popcount_le _) (by decide))).trans (popcount_errorSet hn _ b)

/-- A manual flip leaves the number of errors under the cap: it is rejected, removes an error, or adds one below the cap. -/
theorem popcount_flipResult_xor_le {n cap i : Nat} {a b : Byte} (ha : a.toNat < 2 ^ n) (hb : b.toNat < 2 ^ n) (hi : i < 8)
    (hcap : popcount (a ^^^ b) ≤ cap) : popcount (flipResult n cap a b i ^^^ b) ≤ cap := by
  rw [flipResult, flipAccepted, errorSet_eq_xor ha hb]
  split
  case isFalse => exact hcap
  case isTrue haccepted =>
    rw [flipBit_xor]
    cases herror : (a ^^^ b).getLsbD i with
    | true =>
      have hremoved := popcount_flipBit_of_set hi herror
      omega
    | false =>
      rw [herror, Bool.false_or, decide_eq_true_iff] at haccepted
      rw [popcount_flipBit_of_clear hi herror]
      exact haccepted

/-- The reported count is 0 for the original word only (R143). -/
theorem flipResponse_cnt_eq_zero_iff {n i : Nat} {a b : Byte} (cap : Nat) (ha : a.toNat < 2 ^ n) (hb : b.toNat < 2 ^ n)
    (hi : i < n) : (flipResponse n cap a b i).cnt = 0#4 ↔ (flipResponse n cap a b i).y = b := by
  obtain ⟨_, _, hmask, hcnt⟩ := flipResponse_fields cap ha hb hi
  rw [← BitVec.toNat_inj, hcnt, hmask]
  exact popcount_eq_zero_iff.trans BitVec.xor_eq_zero_iff

/-! ### The statements -/

/-- Settles O48: the two positions are different, and the pair of draws that selects them can be read off from them. -/
theorem inj8DrawsAreOrderedPairs : Obligations.Inj8DrawsAreOrderedPairs := by
  refine ⟨fun c s hd => ?positions, fun c p q s hp hq hpq => ?pair⟩
  case positions =>
    rw [← draw1_eq] at hd
    have hp := draw0_lt s.rnd
    have hq := secondPosition_le (draw0 s.rnd) hd
    have hne := secondPosition_ne (draw0 s.rnd) (draw1 s.rnd)
    have hpos := toNat_toField (show draw0 s.rnd < 16 by omega)
    have hpos2 := toNat_toField (show secondPosition (draw0 s.rnd) (draw1 s.rnd) < 16 by omega)
    refine ⟨_, exec_inj8_two_of_le c hd, ?_, ?_, fun h => hne ?_, popcount_two_flips_xor c hp (by omega) hne⟩
    · exact hpos.trans_le (by omega)
    · exact hpos2.trans_le hq
    · exact hpos2.symm.trans ((congrArg BitVec.toNat h.symm).trans hpos)
  case pair =>
    have hne : p.toNat ≠ q.toNat := mt BitVec.eq_of_toNat_eq hpq
    refine (existsUnique_congr fun rnd => ?_).mpr (existsUnique_eq (a' := pairDraw p.toNat q.toNat))
    rw [← draw1_eq, ← draws_select_iff hp hq hne]
    exact and_congr_right fun hd => exec_inj8_two_reports_iff c (s := { s with rnd := rnd }) p q hd

/-- Settles O49: the model's flip is the common rule, and the checks stand in their order before it. -/
theorem flipResults : Obligations.FlipResults := by
  refine ⟨fun idx b a => by simp [decode], fun idx b a s ha hb hi => ?flip7, fun idx b a s h => ?width,
    fun idx b a s ha hb hi => exec_flip7_of_position ha hb hi s, fun idx b a s hi => ?flip8,
    fun idx b a s hi => exec_flip8_of_position hi b a s, fun s hcmd => ?sample7Accepted, fun s hcmd => ?sample7Rejected,
    fun s hcmd => ?sample8Accepted, fun s hcmd => ?sample8Rejected, fun s hcmd => ?sample8Removed⟩
  case flip7 =>
    exact ⟨_, exec_flip7_of_le ha hb hi s, manualFlip_flipResponse 1 a b (by decide) (Nat.lt_succ_of_le hi)⟩
  case width =>
    exact operandWidth_of_check (execFlip7_eq idx b a s) (Bool.or_eq_true_iff.mpr (h.imp tooWide_of_le tooWide_of_le))
  case flip8 => exact ⟨_, exec_flip8_of_le hi b a s, manualFlip_flipResponse 2 a b (by decide) (Nat.lt_succ_of_le hi)⟩
  case sample7Accepted => exact step_flip7 hcmd 4#4 0x66#8 0x66#8 (by decide) (by decide) (by decide)
  case sample7Rejected => exact step_flip7 hcmd 0#4 0x66#8 0x76#8 (by decide) (by decide) (by decide)
  case sample8Accepted => exact step_flip8 hcmd 5#4 0xFF#8 0xFB#8 (by decide) (by decide) (by decide)
  case sample8Rejected => exact step_flip8 hcmd 7#4 0xFF#8 0xDB#8 (by decide) (by decide) (by decide)
  case sample8Removed => exact step_flip8 hcmd 2#4 0xFF#8 0xDB#8 (by decide) (by decide) (by decide)

/-- Settles O50: an accepted flip removes an error or adds one below the cap, and the count is the size of the difference. -/
theorem manualFlipsStayUnderTheCap : Obligations.ManualFlipsStayUnderTheCap := by
  refine ⟨fun idx b a s ha hb hi hcap => ?flip7, fun idx b a s hi hcap => ?flip8⟩
  case flip7 =>
    exact ⟨_, exec_flip7_of_le ha hb hi s, flipResult_lt ha (by omega), popcount_flipResult_xor_le ha hb (by omega) hcap,
      flipResponse_cnt_eq_zero_iff 1 ha hb (by omega)⟩
  case flip8 =>
    exact ⟨_, exec_flip8_of_le hi b a s, popcount_flipResult_xor_le a.isLt b.isLt (by omega) hcap,
      flipResponse_cnt_eq_zero_iff 2 a.isLt b.isLt (by omega)⟩

/-- Settles O46: the width check, the range check, and one flip at the draw. -/
theorem inj7Result : Obligations.Inj7Result := by
  refine ⟨fun idx b a => by simp [decode], fun c s hc hd => ?flip, fun c s h => ?width, fun c s hc hd => ?range,
    fun s hcmd hrnd => ?sample⟩
  case flip =>
    rw [← draw0_eq] at hd ⊢
    exact exec_inj7_of_le hc hd
  case width => exact operandWidth_of_check (execInj7_eq c s) (tooWide_of_le h)
  case range => exact exec_inj7_of_range hc (by rw [draw0_eq, hd]; decide)
  case sample =>
    have hd : draw0 s.rnd = 4 := by rw [hrnd]; decide
    have hy : flipBit 0x66#8 4 = 0x76#8 := by decide
    rw [step_of_decode hcmd (i := .inj7 0x66#8) (by decide), exec_inj7_of_le (by decide) (by omega), hd, hy]
    rfl

/-- Settles O47: the count selects one flip at the first draw, two flips with the second position among the seven left, or the
fault. -/
theorem inj8Result : Obligations.Inj8Result := by
  refine ⟨fun idx b a => by simp [decode], fun c s => ?one, fun c q0 q1 s hq0 hd hq1 => ?two,
    fun idx c s h1 h2 => exec_inj8_of_count h1 h2 c s, fun c s hd => ?range, fun s hcmd hrnd => ?sample⟩
  case one =>
    rw [← draw0_eq]
    exact exec_inj8_one c s
  case two =>
    rw [← draw1_eq] at hd hq1
    rw [← draw0_eq] at hq0
    subst hq0 hq1
    exact exec_inj8_two_of_le c hd
  case range => exact exec_inj8_two_of_range c (by rw [draw1_eq, hd]; decide)
  case sample =>
    have hd0 : draw0 s.rnd = 2 := by rw [hrnd]; decide
    have hd1 : draw1 s.rnd = 4 := by rw [hrnd]; decide
    have hr : inj8Two 0xFF#8 2 (secondPosition 2 4) = { y := 0xDB#8, pos := 2#4, pos2 := 5#4, mask := 0x24#8, cnt := 2#4 } := by
      decide
    rw [step_of_decode hcmd (i := .inj8 2#4 0xFF#8) (by decide), exec_inj8_two_of_le _ (by omega), hd0, hd1, hr]
    rfl

end Sys2Proof.Machine
end

section
/-! Faults and the rules between transactions (`spec/60_exceptions.md` R160 to R175): what a response can be, which cause it
reports, where a run ends, and operands taken from earlier responses. -/

namespace Sys2Proof.Machine

/-! ### Legal responses -/

/-- A completed response whose numbers are in their ranges is legal; a field that is not driven is 0 and needs no argument. -/
theorem Response.Legal.of_completed {r : Response} (hfault : r.fault = false) (hcause : r.cause = 0#3)
    (hetype : r.etype ≠ 3#2 := by simp) (hpos : r.pos.toNat ≤ 7 := by simp) (hpos2 : r.pos2.toNat ≤ 7 := by simp)
    (hcnt : r.cnt.toNat ≤ 8 := by simp) : r.Legal :=
  ⟨fun _ => hcause, fun h => absurd (hfault.symm.trans h) (by decide), hetype, hpos, hpos2, hcnt⟩

/-- A response behind a check is legal if it is when the check passes: the fault is legal anyway. -/
theorem Response.Legal.check {p : Prop} [Decidable p] {c : Cause} {r : Response} (h : ¬p → r.Legal) :
    Response.Legal (if p then Response.faulted c else r) :=
  iteInduction (fun _ => legal_faulted c) h

theorem ErrorType.code_ne_three (t : ErrorType) : t.code ≠ 3#2 := by
  cases t <;> decide

theorem toNat_toField_le {n k : Nat} (h : n ≤ k) (hk : k < 16) : (toField n).toNat ≤ k :=
  (toNat_toField (Nat.lt_of_le_of_lt h hk)).trans_le h

/-- The position of a report is 0 or the syndrome as a number (R123). -/
theorem classify_pos_le (z : Byte) : (classify z).pos.toNat ≤ 7 := by
  cases hparity : z.getLsbD 3 with
  | true =>
    rw [classify_of_parity hparity]
    exact toNat_toField_syndromeValue_le z
  | false =>
    by_cases hv : syndromeValue z = 0
    · rw [classify_of_zero hparity hv]
      decide
    · rw [classify_of_even hparity hv]
      decide

theorem legal_flipResponse (n cap : Nat) (r o : Byte) (i : Nat) : (flipResponse n cap r o i).Legal := by
  unfold flipResponse
  exact .of_completed rfl rfl (hcnt := toNat_toField_le (popcount_le _) (by decide))

theorem legal_inj8One (a : Byte) {q : Nat} (hq : q ≤ 7) : (inj8One a q).Legal := by
  unfold inj8One
  exact .of_completed rfl rfl (hpos := toNat_toField_le hq (by decide))

theorem legal_inj8Two (a : Byte) {p q : Nat} (hp : p ≤ 7) (hq : q ≤ 7) : (inj8Two a p q).Legal := by
  unfold inj8Two
  exact .of_completed rfl rfl (hpos := toNat_toField_le hp (by decide)) (hpos2 := toNat_toField_le hq (by decide))

/-- Every instruction answers a legal response, whatever stood on the ports: a fault, or numbers that the checks passed before
them keep in their ranges. -/
theorem exec_answers_legal (i : Instr) (s : State) : ∃ r, exec i s = .next (s.drive r) ∧ r.Legal := by
  have hdraw : draw0 s.rnd ≤ 7 := Nat.le_of_lt_succ (draw0_lt s.rnd)
  cases i with
  | gfmul rows cols a => exact ⟨_, execGfmul_eq rows cols a s, .check fun _ => .of_completed rfl rfl⟩
  | enc7 a => exact ⟨_, execEnc7_eq a s, .check fun _ => .of_completed rfl rfl⟩
  | syn7 a => exact ⟨_, execSyn7_eq a s, .check fun _ => .of_completed rfl rfl⟩
  | epos7 a =>
    exact ⟨_, execEpos7_eq a s, .check fun _ => .of_completed rfl rfl (hpos := toNat_toField_syndromeValue_le a)⟩
  | cor7 idx a => exact ⟨_, execCor7_eq idx a s, .check fun _ => .check fun _ => .of_completed rfl rfl⟩
  | ext7 a => exact ⟨_, execExt7_eq a s, .check fun _ => .of_completed rfl rfl⟩
  | inj7 a =>
    exact ⟨_, execInj7_eq a s, .check fun _ => .check fun hd =>
      .of_completed rfl rfl (hpos := toNat_toField_le (Nat.succ_le_succ (Nat.not_lt.mp hd)) (by decide))⟩
  | flip7 idx b a => exact ⟨_, execFlip7_eq idx b a s, .check fun _ => .check fun _ => legal_flipResponse ..⟩
  | illegal8 => exact ⟨_, execIllegal8_eq s, Response.legal_faulted _⟩
  | enc8 a => exact ⟨_, execEnc8_eq a s, .check fun _ => .of_completed rfl rfl⟩
  | syn8 a => exact ⟨_, execSyn8_eq a s, .of_completed rfl rfl⟩
  | cls8 a =>
    exact ⟨_, execCls8_eq a s, .check fun _ =>
      .of_completed rfl rfl (hetype := ErrorType.code_ne_three _) (hpos := classify_pos_le a)⟩
  | cor8 idx a => exact ⟨_, execCor8_eq idx a s, .of_completed rfl rfl⟩
  | ext8 a => exact ⟨_, execExt8_eq a s, .of_completed rfl rfl⟩
  | inj8 idx a =>
    exact ⟨_, execInj8_eq idx a s, .check fun _ => iteInduction (fun _ => legal_inj8One a hdraw) fun _ =>
      .check fun hd => legal_inj8Two a hdraw (secondPosition_le _ (Nat.not_lt.mp hd))⟩
  | flip8 idx b a => exact ⟨_, execFlip8_eq idx b a s, .check fun _ => legal_flipResponse ..⟩

/-! ### The cause that is reported -/

/-- The response reports the causes that apply, in the order of the table: none, or the first, whose code is the lowest (R160,
R162). -/
inductive ReportsLowest : List Cause → Response → Prop
  | completed {r : Response} (hfault : r.fault = false) (hcause : r.cause = 0#3) : ReportsLowest [] r
  | faulted {c : Cause} {cs : List Cause} (hlow : ∀ c' ∈ cs, c.code.toNat ≤ c'.code.toNat) :
    ReportsLowest (c :: cs) (Response.faulted c)

/-- One check of a meaning, for a cause whose code is not above those of the checks after it. -/
theorem ReportsLowest.check {p : Prop} [Decidable p] {b : Bool} {c : Cause} {cs : List Cause} {r : Response}
    (hb : b = true ↔ p) (hlow : ∀ c' ∈ cs, c.code.toNat ≤ c'.code.toNat) (h : ReportsLowest cs r) :
    ReportsLowest (causeIf c b ++ cs) (if p then Response.faulted c else r) := by
  by_cases hp : p
  · rw [if_pos hp, causeIf, hb.mpr hp]
    exact .faulted hlow
  · rw [if_neg hp, causeIf, if_neg (mt hb.mp hp)]
    exact h

/-- The last check of a meaning. -/
theorem ReportsLowest.lastCheck {p : Prop} [Decidable p] {b : Bool} {c : Cause} {r : Response} (hb : b = true ↔ p)
    (hfault : r.fault = false) (hcause : r.cause = 0#3) :
    ReportsLowest (causeIf c b) (if p then Response.faulted c else r) := by
  rw [← List.append_nil (causeIf c b)]
  exact .check hb nofun (.completed hfault hcause)

theorem mem_causeIf {c c' : Cause} {b : Bool} (h : c' ∈ causeIf c b) : c' = c := by
  cases b with
  | true => exact List.mem_singleton.mp h
  | false => cases h

/-- Two checks of a meaning in the order of their codes. -/
theorem ReportsLowest.twoChecks {p q : Prop} [Decidable p] [Decidable q] {b d : Bool} {c c' : Cause} {r : Response}
    (hb : b = true ↔ p) (hd : d = true ↔ q) (hlow : c.code.toNat ≤ c'.code.toNat) (hfault : r.fault = false)
    (hcause : r.cause = 0#3) :
    ReportsLowest (causeIf c b ++ causeIf c' d) (if p then Response.faulted c else if q then Response.faulted c' else r) :=
  .check hb (fun _ h => mem_causeIf h ▸ hlow) (.lastCheck hd hfault hcause)

theorem not_hasLength_iff (len : Nat) (v : Byte) : (!hasLength len v) = true ↔ tooWide len v = true := by
  rw [Bool.not_eq_true', ← Bool.not_eq_true, hasLength_iff, not_not]

theorem range_iff_draw0 (rnd : RndWord) : decide (rnd.toNat % 8 = 7) = true ↔ 6 < draw0 rnd := by
  rw [draw0_eq, decide_eq_true_iff]
  omega

theorem range_iff_draw1 (rnd : RndWord) : decide (rnd.toNat / 8 = 7) = true ↔ 6 < draw1 rnd := by
  have hlt := rnd.isLt
  rw [draw1_eq, decide_eq_true_iff]
  omega

/-- The count of `INJ8` decides what else can be wrong: with 1 nothing, with 2 the second draw. -/
theorem violations_inj8_one (mat : MatWord) (rnd : RndWord) (a : Byte) : violations mat rnd (.inj8 1#4 a) = [] := by
  simp [violations, causeIf]

theorem violations_inj8_two (mat : MatWord) (rnd : RndWord) (a : Byte) :
    violations mat rnd (.inj8 2#4 a) = causeIf .rngRange (decide (rnd.toNat / 8 = 7)) := by
  simp [violations, causeIf]

theorem violations_inj8_of_count {idx : Nibble} (h1 : idx ≠ 1#4) (h2 : idx ≠ 2#4) (mat : MatWord) (rnd : RndWord) (a : Byte) :
    violations mat rnd (.inj8 idx a) = [.count] := by
  have h1' : idx.toNat ≠ 1 := fun h => h1 (BitVec.eq_of_toNat_eq h)
  have h2' : idx.toNat ≠ 2 := fun h => h2 (BitVec.eq_of_toNat_eq h)
  simp [violations, causeIf, h1', h2']

/-- The checks of every meaning are the conditions of the table of causes, in the order of the codes. -/
theorem exec_reportsLowest (i : Instr) (s : State) :
    ∃ r, exec i s = .next (s.drive r) ∧ ReportsLowest (violations s.mat s.rnd i) r := by
  cases i with
  | gfmul rows cols a =>
    exact ⟨_, execGfmul_eq rows cols a s,
      .lastCheck (decide_eq_true_iff.trans (gfmulMismatch_iff_dimensionMismatch ..).symm) rfl rfl⟩
  | enc7 a => exact ⟨_, execEnc7_eq a s, .lastCheck (not_hasLength_iff 4 a) rfl rfl⟩
  | syn7 a => exact ⟨_, execSyn7_eq a s, .lastCheck (not_hasLength_iff 7 a) rfl rfl⟩
  | epos7 a => exact ⟨_, execEpos7_eq a s, .lastCheck (not_hasLength_iff 3 a) rfl rfl⟩
  | cor7 idx a =>
    exact ⟨_, execCor7_eq idx a s, .twoChecks (not_hasLength_iff 7 a) decide_eq_true_iff (by decide) rfl rfl⟩
  | ext7 a => exact ⟨_, execExt7_eq a s, .lastCheck (not_hasLength_iff 7 a) rfl rfl⟩
  | inj7 a =>
    exact ⟨_, execInj7_eq a s, .twoChecks (not_hasLength_iff 7 a) (range_iff_draw0 s.rnd) (by decide) rfl rfl⟩
  | flip7 idx b a =>
    have hwidth : (!hasLength 7 a || !hasLength 7 b) = true ↔ (tooWide 7 a || tooWide 7 b) = true := by
      rw [Bool.or_eq_true, Bool.or_eq_true, not_hasLength_iff, not_hasLength_iff]
    exact ⟨_, execFlip7_eq idx b a s, .twoChecks hwidth decide_eq_true_iff (by decide) rfl rfl⟩
  | illegal8 => exact ⟨_, execIllegal8_eq s, .faulted nofun⟩
  | enc8 a => exact ⟨_, execEnc8_eq a s, .lastCheck (not_hasLength_iff 4 a) rfl rfl⟩
  | syn8 a => exact ⟨_, execSyn8_eq a s, .completed rfl rfl⟩
  | cls8 a => exact ⟨_, execCls8_eq a s, .lastCheck (not_hasLength_iff 4 a) rfl rfl⟩
  | cor8 idx a => exact ⟨_, execCor8_eq idx a s, .completed rfl rfl⟩
  | ext8 a => exact ⟨_, execExt8_eq a s, .completed rfl rfl⟩
  | inj8 idx a =>
    by_cases h1 : idx = 1#4
    · subst h1
      rw [violations_inj8_one]
      exact ⟨_, exec_inj8_one a s, .completed rfl rfl⟩
    · by_cases h2 : idx = 2#4
      · subst h2
        rw [violations_inj8_two]
        exact ⟨_, exec_inj8_two a s, .lastCheck (range_iff_draw1 s.rnd) rfl rfl⟩
      · rw [violations_inj8_of_count h1 h2]
        exact ⟨_, exec_inj8_of_count h1 h2 a s, .faulted nofun⟩
  | flip8 idx b a => exact ⟨_, execFlip8_eq idx b a s, .lastCheck decide_eq_true_iff rfl rfl⟩

/-! ### A rejected flip -/

/-- A flip outside an error set that has reached the cap is rejected and leaves the word as received (R143). -/
theorem flipResponse_rejected {n cap i : Nat} {r o : Byte} (hr : r.toNat < 2 ^ n) (ho : o.toNat < 2 ^ n)
    (hi : (r ^^^ o).getLsbD i = false) (hcap : cap ≤ popcount (r ^^^ o)) :
    (flipResponse n cap r o i).acc = false ∧ (flipResponse n cap r o i).fault = false ∧ (flipResponse n cap r o i).y = r := by
  have hrejected : flipAccepted n cap r o i = false := by
    rw [flipAccepted, errorSet_eq_xor hr ho, hi, Bool.false_or, decide_eq_false (Nat.not_lt.mpr hcap)]
  exact ⟨hrejected, rfl, if_neg (Bool.eq_false_iff.mp hrejected)⟩

/-! ### Where a run ends -/

/-- A completed transaction leaves its inputs and its response on the ports. -/
theorem transact_of_completes {cmd : CmdWord} {mat : MatWord} {rnd : RndWord} {s : State} {r : Response}
    (hexec : exec (decode cmd) (s.present cmd mat rnd) = .next ((s.present cmd mat rnd).drive r)) (hfault : r.fault = false) :
    transact cmd mat rnd s = .next ((s.present cmd mat rnd).drive r) := by
  rw [transact, step_eq_exec_decode, State.present_cmd, hexec]
  simp [Response.faultCause, hfault]

/-- A faulting transaction is the fault with its cause (R161). -/
theorem transact_of_faults {cmd : CmdWord} {mat : MatWord} {rnd : RndWord} {s : State} {c : Cause}
    (hexec : exec (decode cmd) (s.present cmd mat rnd) = .next ((s.present cmd mat rnd).drive (Response.faulted c))) :
    transact cmd mat rnd s = .fault (.precondition c) := by
  rw [transact, step_eq_exec_decode, State.present_cmd, hexec]
  simp

/-- A transaction completes without a fault, or it is the fault with its cause; it is never refused (R161, R166). -/
theorem transact_cases (cmd : CmdWord) (mat : MatWord) (rnd : RndWord) (s : State) :
    (∃ t, transact cmd mat rnd s = .next t ∧ t.rsp.fault = false) ∨
      ∃ c, transact cmd mat rnd s = .fault (.precondition c) := by
  obtain ⟨r, hr, hanswer⟩ := exec_answerOf (decode cmd) (s.present cmd mat rnd)
  cases hanswer with
  | completed hfault _ => exact .inl ⟨_, transact_of_completes hr hfault, hfault⟩
  | faulted c _ => exact .inr ⟨c, transact_of_faults hr⟩

/-- What the first transaction makes of a run, whatever follows it: it is refused, it ends there with a fault, or it goes on with
one unfaulted response more. -/
theorem runHost_cons_cases (h : HostStep) (e : List Response) (s : State) :
    (∀ p, runHost (h :: p) e s = .refused .notAHostProgram) ∨
      (∃ c, ∀ p, runHost (h :: p) e s = .fault (.precondition c)) ∨
      ∃ t : State, t.rsp.fault = false ∧ ∀ p, runHost (h :: p) e s = runHost p (e ++ [t.rsp]) t := by
  cases hi : h.inputs? e with
  | none => exact .inl fun p => runHost_cons_refused p s hi
  | some inputs =>
    obtain ⟨cmd, mat, rnd⟩ := inputs
    rcases transact_cases cmd mat rnd s with ⟨t, ht, hfault⟩ | ⟨c, hc⟩
    · exact .inr (.inr ⟨t, hfault, fun p => runHost_cons_next p hi ht⟩)
    · exact .inr (.inl ⟨c, fun p => runHost_cons_fault p hi hc⟩)

/-- A run that ended with a fault does not come to what is appended. -/
theorem runHost_append_of_fault {p : List HostStep} {e : List Response} {s : State} {f : Fault}
    (hrun : runHost p e s = .fault f) (q : List HostStep) : runHost (p ++ q) e s = .fault f := by
  induction p generalizing e s with
  | nil => cases hrun
  | cons h p ih =>
    rw [List.cons_append]
    rcases runHost_cons_cases h e s with hrefused | ⟨c, hc⟩ | ⟨t, _, ht⟩
    · cases (hrefused p).symm.trans hrun
    · rw [hc, ← hc p, hrun]
    · rw [ht] at hrun ⊢
      exact ih hrun

/-- A run that ends with responses has added an unfaulted one for each transaction. -/
theorem runHost_adds_responses {p : List HostStep} {e rs : List Response} {s : State} (hrun : runHost p e s = .next rs) :
    ∃ new, rs = e ++ new ∧ new.length = p.length ∧ ∀ r ∈ new, r.fault = false := by
  induction p generalizing e s with
  | nil =>
    cases hrun
    exact ⟨[], (List.append_nil _).symm, rfl, nofun⟩
  | cons h p ih =>
    rcases runHost_cons_cases h e s with hrefused | ⟨c, hc⟩ | ⟨t, hfault, ht⟩
    · cases (hrefused p).symm.trans hrun
    · cases (hc p).symm.trans hrun
    · obtain ⟨new, rfl, hlength, hnew⟩ := ih ((ht p).symm.trans hrun)
      exact ⟨t.rsp :: new, List.append_assoc .., congrArg Nat.succ hlength, List.forall_mem_cons.mpr ⟨hfault, hnew⟩⟩

/-! ### Operands from earlier responses -/

theorem value?_field {e : List Response} {label : Nat} {r : Response} (h : e[label]? = some r) (f : RspField) :
    (HostSource.field label f).value? e = some (r.value f) :=
  Option.map_eq_some_iff.mpr ⟨r, h, rfl⟩

/-- Words of earlier responses side by side: row `r` stands on the eight wires from `8 * r` on (R61). -/
theorem partsValue?_rows {e : List Response} {ls : List Nat} {rs : List Response}
    (hrows : ls.map (fun l => e[l]?) = rs.map some) :
    ∃ n, partsValue? e ((ls.map fun l => .field l .y).map fun src => (8, src)) = some n ∧
      ∀ r c, c < 8 → n.testBit (8 * r + c) = (rs.map fun q => q.y.getLsbD c).getD r false := by
  induction rs generalizing ls with
  | nil =>
    obtain rfl := List.map_eq_nil_iff.mp hrows
    exact ⟨0, rfl, by simp⟩
  | cons q rs ih =>
    obtain ⟨l, ls, rfl, hl, hls⟩ := List.map_eq_cons_iff.mp hrows
    obtain ⟨m, hm, hbits⟩ := ih hls
    refine ⟨q.y.toNat + 2 ^ 8 * m, partsValue?_cons (value?_field hl .y) hm q.y.isLt, fun r c hc => ?_⟩
    rw [Nat.add_comm, Nat.testBit_two_pow_mul_add m q.y.isLt]
    cases r with
    | zero =>
      rw [if_pos (by omega), Nat.mul_zero, Nat.zero_add]
      rfl
    | succ r =>
      rw [if_neg (by omega), show 8 * (r + 1) + c - 8 = 8 * r + c by omega, hbits r c hc]
      rfl

/-- Parts that take at most `w` wires together resolve to a word on `w` wires with their number. -/
theorem wires?_parts {e : List Response} {l : List (Nat × HostSource)} {n w : Nat} (h : partsValue? e l = some n)
    (hw : (l.map Prod.fst).sum ≤ w) :
    ∃ v : BitVec w, (HostOperand.parts l).wires? e w = some v ∧ v.toNat = n := by
  have hn : n < 2 ^ w := Nat.lt_of_lt_of_le (partsValue?_lt h) (Nat.pow_le_pow_right Nat.two_pos hw)
  exact ⟨BitVec.ofNat w n, wires?_eq_some.mpr ⟨n, h, hn, rfl⟩, (BitVec.toNat_ofNat ..).trans (Nat.mod_eq_of_lt hn)⟩

/-- A transaction whose operands resolve runs their command on their ports; completed, it adds its response to the run. -/
theorem runHost_singleton {h : HostStep} {e : List Response} {cmd : CmdWord} {mat : MatWord} {rnd : RndWord} {s : State}
    {r : Response} (hi : h.inputs? e = some (cmd, mat, rnd))
    (hexec : exec (decode cmd) (s.present cmd mat rnd) = .next ((s.present cmd mat rnd).drive r)) (hfault : r.fault = false) :
    runHost [h] e s = .next (e ++ [r]) :=
  runHost_cons_next [] hi (transact_of_completes hexec hfault)

/-! ### The statements -/

/-- Settles O13: every instruction answers a legal response from any state, so the one before it need not be legal. -/
theorem stepKeepsResponsesLegal : Obligations.StepKeepsResponsesLegal := by
  have hstep (s : State) : ∃ t, step s = .next t ∧ t.rsp.Legal := by
    obtain ⟨r, hr, hlegal⟩ := exec_answers_legal (decode s.cmd) s
    exact ⟨s.drive r, hr, hlegal⟩
  refine ⟨fun s t _ ht => ?_, hstep⟩
  obtain ⟨u, hu, hlegal⟩ := hstep s
  cases hu.symm.trans ht
  exact hlegal

/-- Settles O10: one response answers the inputs in every state that has them on its ports. -/
theorem responseIsAFunctionOfTheInputs : Obligations.ResponseIsAFunctionOfTheInputs := by
  choose f hf using step_answers
  exact ⟨f, fun s => hf s.cmd s.mat s.rnd s rfl rfl rfl⟩

/-- Settles O17: a response with a fault is not a completed one, and the other responses are those of `raiseFault`. -/
theorem faultDrivesCauseAndNothingElse : Obligations.FaultDrivesCauseAndNothingElse := by
  refine ⟨raiseFault_eq, fun c => by cases c <;> decide, fun i s t ht hfault => ?_⟩
  obtain ⟨r, hr, hanswer⟩ := exec_answerOf i s
  cases hr.symm.trans ht
  cases hanswer with
  | completed hcompleted _ => cases hcompleted.symm.trans hfault
  | faulted c _ => exact ⟨c, rfl⟩

/-- Settles O18: the checks of a meaning are the conditions of the table in the order of the codes, and the first that applies is
the one reported. -/
theorem lowestApplicableCauseIsReported : Obligations.LowestApplicableCauseIsReported := by
  refine ⟨by decide, fun i s => ?_⟩
  obtain ⟨r, hr, hreports⟩ := exec_reportsLowest i s
  generalize violations s.mat s.rnd i = causes at hreports ⊢
  cases hreports with
  | completed hfault hcause => exact ⟨fun _ => ⟨r, hr, hfault, hcause⟩, nofun⟩
  | faulted hlow =>
    exact ⟨nofun, fun _ => ⟨_, List.mem_cons_self, List.forall_mem_cons.mpr ⟨Nat.le_refl _, hlow⟩, hr⟩⟩

/-- Settles O20: a nonzero syndrome without the overall parity is the `double` row, and a flip that is not accepted returns the
received word. -/
theorem doubleAndRejectedFlipAreNoFaults : Obligations.DoubleAndRejectedFlipAreNoFaults := by
  refine ⟨fun a s ha hparity hne => ?double, fun idx b a s ha hb hi hbit hcap =>
    ⟨_, exec_flip7_of_le ha hb hi s, flipResponse_rejected ha hb hbit hcap⟩, fun idx b a s hi hbit hcap =>
    ⟨_, exec_flip8_of_le hi b a s, flipResponse_rejected a.isLt b.isLt hbit hcap⟩⟩
  case double =>
    have h4 : a.toNat < 2 ^ 4 := ha
    have h8 : a.toNat < 2 ^ 3 := toNat_lt_two_pow_iff.mpr fun i hi => by
      rcases Nat.eq_or_lt_of_le hi with rfl | hi
      · exact hparity
      · exact toNat_lt_two_pow_iff.mp h4 i hi
    refine exec_cls8_double ha hparity (fun hv => hne (BitVec.eq_of_toNat_eq ?_)) s
    exact (syndromeValue_of_lt h8).symm.trans hv

/-- Settles O51, by induction on the transactions: each ends the run or adds an unfaulted response. -/
theorem runsEndAtTheFirstFault : Obligations.RunsEndAtTheFirstFault := by
  refine ⟨fun p q e s f hrun => runHost_append_of_fault hrun q, fun p e rs s hrun => ?_⟩
  obtain ⟨new, rfl, hlength, hnew⟩ := runHost_adds_responses hrun
  rw [List.drop_left]
  exact ⟨List.take_left, by rw [List.length_append, hlength], hnew⟩

/-- Settles O55: rows and draws are parts side by side, each on its own wires; what the operands resolve to is presented. -/
theorem operandsComeFromEarlierResponses : Obligations.OperandsComeFromEarlierResponses := by
  refine ⟨fun e ls rs hlen hrows => ?rows, fun e l0 l1 q0 q1 h0 h1 hpos0 hpos1 => ?draws,
    fun h e s idx b a mat rnd r hidx hb ha hmat hrnd hexec hfault => ?run⟩
  case rows =>
    obtain ⟨n, hn, hbits⟩ := partsValue?_rows hrows
    obtain ⟨m, hm, rfl⟩ := wires?_parts (w := 64) hn (by simp [Function.comp_def]; omega)
    exact ⟨m, hm, hbits⟩
  case draws =>
    have hvalue := partsValue?_cons (w := 3) (value?_field h0 .pos)
      (partsValue?_cons (w := 3) (rest := []) (value?_field h1 .pos) rfl (Nat.lt_succ_of_le hpos1)) (Nat.lt_succ_of_le hpos0)
    obtain ⟨d, hd, hnat⟩ := wires?_parts (w := 6) hvalue le_rfl
    simp only [Response.value] at hnat
    exact ⟨d, hd, by omega, by omega⟩
  case run =>
    have hcommand : h.command? e = some (command h.op idx b a) := by
      simp only [HostStep.command?, hidx, hb, ha]
    exact runHost_singleton (inputs?_eq_some.mpr ⟨hcommand, hmat, hrnd⟩) hexec hfault

end Sys2Proof.Machine
end

section
/-! The caller's obligation on `COR8` (`spec/70_reset_and_hazards.md` R184): every position that keeps it makes of the word the one
that the third transaction of `DEC8` makes; then the statements. -/

namespace Sys2Proof.Machine

/-- The response of `CLS8` on the syndrome of a received word (R122, R123). -/
def cls8Response (r : Byte) : Response :=
  { etype := (dec8Report r).etype.code, pos := (dec8Report r).pos, cc := (dec8Report r).cc }

theorem exec_cls8_syndrome8 (r : Byte) (s : State) : exec (.cls8 (syndrome8 r)) s = .next (s.drive (cls8Response r)) :=
  exec_cls8_of_lt (syndrome8_lt r) s

/-- A position with its sign bit set is negative (R65). -/
theorem toInt_neg_of_le {idx : Nibble} (h : 8 ≤ idx.toNat) : idx.toInt < 0 :=
  BitVec.toInt_neg_iff.mpr (by omega)

/-- After a `single` report R184 leaves the host one position, and after another all it may pass are the identity: `COR8` gives
the word of `DEC8`. -/
theorem exec_cor8_of_keepsR184 {r : Byte} {idx : Nibble} (hkeep : KeepsR184 (cls8Response r) idx) (s : State) :
    exec (.cor8 idx r) s = .next (s.drive { y := dec8Word r }) := by
  by_cases hsingle : (cls8Response r).etype = ErrorType.single.code
  · rw [KeepsR184, if_pos hsingle] at hkeep
    have hidx : dec8Idx r = idx := (if_pos hsingle).trans hkeep.symm
    rw [dec8Word, hidx]
    exact execCor8_eq idx r s
  · rw [KeepsR184, if_neg hsingle] at hkeep
    rw [dec8Word_of_not_single hsingle]
    exact exec_cor8_of_neg (toInt_neg_of_le hkeep) r s

/-- Only a `single` report has a position other than 0 (R123). -/
theorem classify_pos_of_not_single {z : Byte} (h : (classify z).etype ≠ .single) : (classify z).pos = 0#4 := by
  cases hparity : z.getLsbD 3 with
  | true => exact absurd (by rw [classify_of_parity hparity]) h
  | false =>
    by_cases hvalue : syndromeValue z = 0
    · rw [classify_of_zero hparity hvalue]
    · rw [classify_of_even hparity hvalue]

theorem cls8Response_pos_of_not_single {r : Byte} (h : (cls8Response r).etype ≠ ErrorType.single.code) :
    (cls8Response r).pos = 0#4 :=
  classify_pos_of_not_single (mt (congrArg ErrorType.code) h)

/-- Two flips are not reported as `single` (R127). -/
theorem dec8Word_two_flips {d e : Byte} (hd : d.toNat < 16) (he : popcount e = 2) :
    dec8Word (encode8 d ^^^ e) = encode8 d ^^^ e :=
  dec8Word_of_not_single (by rw [dec8Report_flips hd, dec8Report_of_popcount_eq_two he]; decide)

/-! ### The statements -/

/-- Settles O44: the reported 0 is the index of the overall parity bit, and the word of `DEC8` is the received one. -/
theorem cor8OnlyWhenSingle : Obligations.Cor8OnlyWhenSingle := by
  refine fun r s => ⟨syndrome8 r, cls8Response r, execSyn8_eq r s, exec_cls8_syndrome8 r s, fun hne => ?_⟩
  have hpos := cls8Response_pos_of_not_single hne
  refine ⟨hpos, ?flip, fun idx hkeep => ?identity⟩
  case flip =>
    rw [hpos]
    exact exec_cor8_toField (i := 0) (by decide) r s
  case identity =>
    have hcor := exec_cor8_of_keepsR184 hkeep s
    rwa [dec8Word_of_not_single hne] at hcor

/-- Settles O45: whatever the host may pass, `COR8` gives the word of `DEC8`, which is the codeword after at most one flip and the
received word after two. -/
theorem extendedDecodingUnderR184 : Obligations.ExtendedDecodingUnderR184 := by
  refine fun d e s hd _ => ⟨encode8 d, _, _, exec_enc8_of_lt hd s, execSyn8_eq _ s, exec_cls8_syndrome8 _ s,
    fun idx hkeep => ⟨fun hone => ⟨?corrected, ?data⟩, fun htwo => ?received⟩⟩
  case corrected =>
    have hcor := exec_cor8_of_keepsR184 hkeep s
    rwa [dec8Word_flips hd hone] at hcor
  case data =>
    have hext := execExt8_eq (encode8 d) s
    rwa [project_encode8 hd] at hext
  case received =>
    have hcor := exec_cor8_of_keepsR184 hkeep s
    rwa [dec8Word_two_flips hd htwo] at hcor

end Sys2Proof.Machine
end
